-- ==== Sys2Proof/Word.lean ====
section
/-! DEFINITION. The words of the core: bytes, 16-bit words, and the types of the decode fields
(10_state.md R31, R34, R35; 30_encoding.md R122). -/

namespace Sys2Proof

/-- An 8-bit value: a memory byte, a general register, a timer, the literal NN (R11, R31, R40). -/
abbrev Byte := BitVec 8

/-- A 16-bit value: an instruction word, I, pc, a stack entry (R34, R35, R38, R120). -/
abbrev Word := BitVec 16

/-- A register number, the field X or Y (R31, R122). -/
abbrev Reg := Fin 16

/-- A key number 0x0..0xF (R41). -/
abbrev Key := Fin 16

/-- The 12-bit field NNN (R122). -/
abbrev Addr12 := BitVec 12

/-- The 4-bit field N, a row count (R122, R124). -/
abbrev Nibble := BitVec 4

/-- The flag register VF, number 0xF (R32). -/
abbrev regF : Reg := 15

/-- The register V0, which BNNN adds (R212). -/
abbrev reg0 : Reg := 0

end Sys2Proof
end

