-- ==== Sys2Proof/Config.lean ====
section
/-! DEFINITION. The configuration of 00_scope.md R9, the fixed parameters of R7, and the free value of CXNN (R10).
The default values stand in Machine/Defaults.lean. -/

namespace Sys2Proof

/-- SHIFT_SOURCE (R9): which register 8XY6 and 8XYE shift (R249, R251; C7). -/
inductive ShiftSource where
  | vy
  | vx
deriving DecidableEq, Repr

/-- ADDRESS_POLICY (R9): an address above 0xFFF faults, or is reduced modulo 4096 (R90; D3). -/
inductive AddressPolicy where
  | fault
  | wrap
deriving DecidableEq, Repr

/-- FONT_WRITE_POLICY (R9): a program store below 0x050 faults, is dropped, or is made (R91; D4). -/
inductive FontWritePolicy where
  | fault
  | ignore
  | write
deriving DecidableEq, Repr

/-- KEY_INDEX_POLICY (R9): a key index above 0xF faults, or its low nibble is taken (R366; D10). -/
inductive KeyIndexPolicy where
  | fault
  | mask
deriving DecidableEq, Repr

/-- The configuration parameters of R9, one field each. They are fixed for a machine: State carries them
(log 1) and no step and no host operation changes them. -/
structure Config where
  shiftSource     : ShiftSource
  ldstIncrementI  : Bool
  addressPolicy   : AddressPolicy
  fontWritePolicy : FontWritePolicy
  decode59Strict  : Bool
  keyIndexPolicy  : KeyIndexPolicy
  /-- FONT: 16 glyphs of 5 bytes, glyph n at 5n (R84, R85). -/
  font            : Vector Byte 80
  /-- W, the columns of the framebuffer (R8). -/
  width           : Nat
  /-- H, the rows of the framebuffer (R8). -/
  height          : Nat
deriving DecidableEq, Repr

/-- MEM_SIZE (R7, R80). -/
abbrev memSize : Nat := 4096

/-- FONT_END: the font occupies the addresses below it (R7, R82). -/
abbrev fontEnd : Nat := 0x050

/-- ENTRY (R7, R83). -/
abbrev entryPoint : Nat := 0x200

/-- MAX_PROGRAM (R7, R471). -/
abbrev maxProgram : Nat := 0xE00

/-- STACK_DEPTH (R7, R38). -/
abbrev stackDepth : Nat := 12

/-- FREE VALUE. The n-th rnd draw of CXNN: any byte, with no law between draws (R10, R253; D17, U4; log 2).
It has no body, so nothing can evaluate it. -/
opaque Config.rnd : Nat → Byte

end Sys2Proof
end

