-- ==== Sys2Proof/Machine/Defaults.lean ====
section
/-! DEFINITION. The default configuration of 00_scope.md R9 and the default FONT of 20_memory.md R86. -/

namespace Sys2Proof

/-- The default FONT, one glyph of five bytes a line (R86; its bytes are general knowledge by the spec's own word,
D23, G1; log 4). -/
def defaultFont : Vector Byte 80 :=
  #v[0xF0, 0x90, 0x90, 0x90, 0xF0,
     0x20, 0x60, 0x20, 0x20, 0x70,
     0xF0, 0x10, 0xF0, 0x80, 0xF0,
     0xF0, 0x10, 0xF0, 0x10, 0xF0,
     0x90, 0x90, 0xF0, 0x10, 0x10,
     0xF0, 0x80, 0xF0, 0x10, 0xF0,
     0xF0, 0x80, 0xF0, 0x90, 0xF0,
     0xF0, 0x10, 0x20, 0x40, 0x40,
     0xF0, 0x90, 0xF0, 0x90, 0xF0,
     0xF0, 0x90, 0xF0, 0x10, 0xF0,
     0xF0, 0x90, 0xF0, 0x90, 0x90,
     0xE0, 0x90, 0xE0, 0x90, 0xE0,
     0xF0, 0x80, 0x80, 0x80, 0xF0,
     0xE0, 0x90, 0x90, 0x90, 0xE0,
     0xF0, 0x80, 0xF0, 0x80, 0xF0,
     0xF0, 0x80, 0xF0, 0x80, 0x80]

/-- The defaults of R9, which every unqualified rule and test vector assumes. -/
def Config.default : Config where
  shiftSource     := .vy
  ldstIncrementI  := true
  addressPolicy   := .fault
  fontWritePolicy := .fault
  decode59Strict  := true
  keyIndexPolicy  := .fault
  font            := defaultFont
  width           := 64
  height          := 32

end Sys2Proof
end

