-- ==== Sys2Proof/Syntax.lean ====
section
/-! DEFINITION. The instructions: one constructor per row of spec/opcode_table.json, in its order
(30_encoding.md R134). A word that matches no row is no instruction (R131); Decode.lean answers for it. -/

namespace Sys2Proof

/-- The 34 instructions. Operands are the decode fields of 30_encoding.md R122, typed by their width. -/
inductive Instr where
  /-- 00E0, R321. -/
  | cls
  /-- 00EE, R205. -/
  | ret
  /-- 1NNN, R206. -/
  | jp (nnn : Addr12)
  /-- 2NNN, R207. -/
  | call (nnn : Addr12)
  /-- 3XNN, R208. -/
  | seImm (x : Reg) (nn : Byte)
  /-- 4XNN, R209. -/
  | sneImm (x : Reg) (nn : Byte)
  /-- 5XY0, R210. -/
  | seReg (x y : Reg)
  /-- 6XNN, R241. -/
  | ldImm (x : Reg) (nn : Byte)
  /-- 7XNN, R242. -/
  | addImm (x : Reg) (nn : Byte)
  /-- 8XY0, R243. -/
  | ldReg (x y : Reg)
  /-- 8XY1, R244. -/
  | or (x y : Reg)
  /-- 8XY2, R245. -/
  | and (x y : Reg)
  /-- 8XY3, R246. -/
  | xor (x y : Reg)
  /-- 8XY4, R247. -/
  | addReg (x y : Reg)
  /-- 8XY5, R248. -/
  | sub (x y : Reg)
  /-- 8XY6, R249. -/
  | shr (x y : Reg)
  /-- 8XY7, R250. -/
  | subn (x y : Reg)
  /-- 8XYE, R251. -/
  | shl (x y : Reg)
  /-- 9XY0, R211. -/
  | sneReg (x y : Reg)
  /-- ANNN, R281. -/
  | ldI (nnn : Addr12)
  /-- BNNN, R212. -/
  | jpV0 (nnn : Addr12)
  /-- CXNN, R253. -/
  | rnd (x : Reg) (nn : Byte)
  /-- DXYN, R322. -/
  | drw (x y : Reg) (n : Nibble)
  /-- EX9E, R360. -/
  | skp (x : Reg)
  /-- EXA1, R361. -/
  | sknp (x : Reg)
  /-- FX07, R362. -/
  | ldVxDt (x : Reg)
  /-- FX0A, R363. -/
  | ldK (x : Reg)
  /-- FX15, R364. -/
  | ldDt (x : Reg)
  /-- FX18, R365. -/
  | ldSt (x : Reg)
  /-- FX1E, R282. -/
  | addI (x : Reg)
  /-- FX29, R283. -/
  | ldF (x : Reg)
  /-- FX33, R284. -/
  | ldB (x : Reg)
  /-- FX55, R285. -/
  | stRegs (x : Reg)
  /-- FX65, R286. -/
  | ldRegs (x : Reg)
deriving DecidableEq, Repr

end Sys2Proof
end

