-- ==== Sys2Proof/Decode.lean ====
section
/-! DEFINITION. Decoding by the match/mask test of the opcode table (30_encoding.md R120 to R134), total on every
word, and the encoder written from the formats of R123. -/

namespace Sys2Proof

/-! ### The fields of a word (R122) -/

/-- X: bits 11..8. -/
def fieldX (op : Word) : Reg := (op.extractLsb' 8 4).toFin

/-- Y: bits 7..4. -/
def fieldY (op : Word) : Reg := (op.extractLsb' 4 4).toFin

/-- N: bits 3..0. -/
def fieldN (op : Word) : Nibble := op.extractLsb' 0 4

/-- NN: bits 7..0. -/
def fieldNN (op : Word) : Byte := op.extractLsb' 0 8

/-- NNN: bits 11..0. -/
def fieldNNN (op : Word) : Addr12 := op.extractLsb' 0 12

/-! ### The opcode table -/

/-- One row of the opcode table: a word matches when its bits under `mask` are `pat`; `build` reads the operands. -/
structure OpcodeRow where
  mask  : Word
  pat   : Word
  build : Word → Instr

/-- `(op & mask) == match` (R125). -/
def OpcodeRow.matchesWord (r : OpcodeRow) (op : Word) : Bool := op &&& r.mask == r.pat

/-- The mask of 5XY0 and 9XY0: the low nibble counts only when DECODE_5_9_STRICT (R127; C1, D6). -/
def mask59 (c : Config) : Word := if c.decode59Strict then 0xF00F else 0xF000

/-- The rows of the formats FIXED and ADDR (R123). -/
def rowsAddr : List OpcodeRow :=
  [ ⟨0xFFFF, 0x00E0, fun _  => .cls⟩,
    ⟨0xFFFF, 0x00EE, fun _  => .ret⟩,
    ⟨0xF000, 0x1000, fun op => .jp (fieldNNN op)⟩,
    ⟨0xF000, 0x2000, fun op => .call (fieldNNN op)⟩,
    ⟨0xF000, 0xA000, fun op => .ldI (fieldNNN op)⟩,
    ⟨0xF000, 0xB000, fun op => .jpV0 (fieldNNN op)⟩ ]

/-- The rows of the formats XNN and XYN (R123). -/
def rowsImm : List OpcodeRow :=
  [ ⟨0xF000, 0x3000, fun op => .seImm (fieldX op) (fieldNN op)⟩,
    ⟨0xF000, 0x4000, fun op => .sneImm (fieldX op) (fieldNN op)⟩,
    ⟨0xF000, 0x6000, fun op => .ldImm (fieldX op) (fieldNN op)⟩,
    ⟨0xF000, 0x7000, fun op => .addImm (fieldX op) (fieldNN op)⟩,
    ⟨0xF000, 0xC000, fun op => .rnd (fieldX op) (fieldNN op)⟩,
    ⟨0xF000, 0xD000, fun op => .drw (fieldX op) (fieldY op) (fieldN op)⟩ ]

/-- The rows of the format XY (R123, R127, R128). -/
def rowsXY (c : Config) : List OpcodeRow :=
  [ ⟨mask59 c, 0x5000, fun op => .seReg (fieldX op) (fieldY op)⟩,
    ⟨0xF00F, 0x8000, fun op => .ldReg (fieldX op) (fieldY op)⟩,
    ⟨0xF00F, 0x8001, fun op => .or (fieldX op) (fieldY op)⟩,
    ⟨0xF00F, 0x8002, fun op => .and (fieldX op) (fieldY op)⟩,
    ⟨0xF00F, 0x8003, fun op => .xor (fieldX op) (fieldY op)⟩,
    ⟨0xF00F, 0x8004, fun op => .addReg (fieldX op) (fieldY op)⟩,
    ⟨0xF00F, 0x8005, fun op => .sub (fieldX op) (fieldY op)⟩,
    ⟨0xF00F, 0x8006, fun op => .shr (fieldX op) (fieldY op)⟩,
    ⟨0xF00F, 0x8007, fun op => .subn (fieldX op) (fieldY op)⟩,
    ⟨0xF00F, 0x800E, fun op => .shl (fieldX op) (fieldY op)⟩,
    ⟨mask59 c, 0x9000, fun op => .sneReg (fieldX op) (fieldY op)⟩ ]

/-- The rows of the format X (R123, R129, R130). -/
def rowsX : List OpcodeRow :=
  [ ⟨0xF0FF, 0xE09E, fun op => .skp (fieldX op)⟩,
    ⟨0xF0FF, 0xE0A1, fun op => .sknp (fieldX op)⟩,
    ⟨0xF0FF, 0xF007, fun op => .ldVxDt (fieldX op)⟩,
    ⟨0xF0FF, 0xF00A, fun op => .ldK (fieldX op)⟩,
    ⟨0xF0FF, 0xF015, fun op => .ldDt (fieldX op)⟩,
    ⟨0xF0FF, 0xF018, fun op => .ldSt (fieldX op)⟩,
    ⟨0xF0FF, 0xF01E, fun op => .addI (fieldX op)⟩,
    ⟨0xF0FF, 0xF029, fun op => .ldF (fieldX op)⟩,
    ⟨0xF0FF, 0xF033, fun op => .ldB (fieldX op)⟩,
    ⟨0xF0FF, 0xF055, fun op => .stRegs (fieldX op)⟩,
    ⟨0xF0FF, 0xF065, fun op => .ldRegs (fieldX op)⟩ ]

/-- The 34 rows (R134). No word matches two of them (R125). -/
def opcodeRows (c : Config) : List OpcodeRow := rowsAddr ++ rowsImm ++ rowsXY c ++ rowsX

/-- What a word decodes to: an instruction, or the UNASSIGNED word, which is a no-op and not a fault (R131). -/
inductive Decoded where
  | instr (i : Instr)
  | unassigned (op : Word)
deriving DecidableEq, Repr

/-- The decoder (R125 to R133): total on all 65536 words. -/
def decode (c : Config) (op : Word) : Decoded :=
  match (opcodeRows c).find? (fun r => r.matchesWord op) with
  | some r => .instr (r.build op)
  | none   => .unassigned op

/-- The instruction word of two bytes, hi<<8 | lo: the byte at the lower address is bits 15..8 (R92). -/
def wordOfBytes (hi lo : Byte) : Word := hi.setWidth 16 <<< 8 ||| lo.setWidth 16

/-- The decoder over bytes: it takes two and leaves the rest; fewer than two are no instruction (R120). -/
def decodeBytes (c : Config) : List Byte → Option (Decoded × List Byte)
  | hi :: lo :: rest => some (decode c (wordOfBytes hi lo), rest)
  | _                => none

/-! ### The encoder (formats of R123) -/

/-- The top nibble of a word, in bits 15..12 (R121). -/
def placeTop (top : Nibble) : Word := top.setWidth 16 <<< 12

/-- The field X, in bits 11..8 (R122). -/
def placeX (x : Reg) : Word := (BitVec.ofFin (w := 4) x).setWidth 16 <<< 8

/-- The field Y, in bits 7..4 (R122). -/
def placeY (y : Reg) : Word := (BitVec.ofFin (w := 4) y).setWidth 16 <<< 4

/-- The format ADDR: a top nibble and NNN. -/
def packAddr (top : Nibble) (nnn : Addr12) : Word := placeTop top ||| nnn.setWidth 16

/-- The formats XNN and X: a top nibble, X and the low byte. -/
def packXNN (top : Nibble) (x : Reg) (nn : Byte) : Word := placeTop top ||| placeX x ||| nn.setWidth 16

/-- The formats XY and XYN: a top nibble, X, Y and the low nibble. -/
def packXY (top : Nibble) (x y : Reg) (low : Nibble) : Word :=
  placeTop top ||| placeX x ||| placeY y ||| low.setWidth 16

/-- The word of an instruction (R134), the fixed nibbles of its pattern around its operands. -/
def encode : Instr → Word
  | .cls        => 0x00E0
  | .ret        => 0x00EE
  | .jp nnn     => packAddr 0x1 nnn
  | .call nnn   => packAddr 0x2 nnn
  | .seImm x nn => packXNN 0x3 x nn
  | .sneImm x nn => packXNN 0x4 x nn
  | .seReg x y  => packXY 0x5 x y 0x0
  | .ldImm x nn => packXNN 0x6 x nn
  | .addImm x nn => packXNN 0x7 x nn
  | .ldReg x y  => packXY 0x8 x y 0x0
  | .or x y     => packXY 0x8 x y 0x1
  | .and x y    => packXY 0x8 x y 0x2
  | .xor x y    => packXY 0x8 x y 0x3
  | .addReg x y => packXY 0x8 x y 0x4
  | .sub x y    => packXY 0x8 x y 0x5
  | .shr x y    => packXY 0x8 x y 0x6
  | .subn x y   => packXY 0x8 x y 0x7
  | .shl x y    => packXY 0x8 x y 0xE
  | .sneReg x y => packXY 0x9 x y 0x0
  | .ldI nnn    => packAddr 0xA nnn
  | .jpV0 nnn   => packAddr 0xB nnn
  | .rnd x nn   => packXNN 0xC x nn
  | .drw x y n  => packXY 0xD x y n
  | .skp x      => packXNN 0xE x 0x9E
  | .sknp x     => packXNN 0xE x 0xA1
  | .ldVxDt x   => packXNN 0xF x 0x07
  | .ldK x      => packXNN 0xF x 0x0A
  | .ldDt x     => packXNN 0xF x 0x15
  | .ldSt x     => packXNN 0xF x 0x18
  | .addI x     => packXNN 0xF x 0x1E
  | .ldF x      => packXNN 0xF x 0x29
  | .ldB x      => packXNN 0xF x 0x33
  | .stRegs x   => packXNN 0xF x 0x55
  | .ldRegs x   => packXNN 0xF x 0x65

/-- The bytes of a word as memory holds them, the high byte at the lower address (R92). -/
def bytesOfWord (op : Word) : List Byte := [op.extractLsb' 8 8, op.extractLsb' 0 8]

/-- The word whose low `nbits` bits are those of `w` and whose other bits are zero, the whole instruction being one
16-bit word (R120). -/
def tableWord (nbits w : Nat) : Word := BitVec.ofNat 16 (w % 2 ^ nbits)

/-- The instruction that the decoder, under the default configuration, reads from a word of the opcode table laid
out in memory order; none for an unassigned word. -/
def decodeTableWord (nbits w : Nat) : Option Instr :=
  match decodeBytes Config.default (bytesOfWord (tableWord nbits w)) with
  | some (.instr i, _) => some i
  | _                  => none

end Sys2Proof
end

