-- ==== Sys2Proof/Machine/Flags.lean ====
section
/-! DEFINITION. Every value VF receives as a flag (41_alu.md R240; 43_display.md R323). VF is the only flag (R33). -/

namespace Sys2Proof.Machine

/-- A truth value as the flag byte 1 or 0. -/
def flagByte (b : Bool) : Byte := if b then 1 else 0

/-- The carry of 8XY4: 1 iff the unsigned sum exceeds 255 (R247). -/
def carryFlag (a b : Byte) : Byte := flagByte (decide (a.toNat + b.toNat > 255))

/-- The not-borrow of `a - b`: 1 iff a ≥ b (R248, R250). -/
def notBorrowFlag (a b : Byte) : Byte := flagByte (decide (a.toNat ≥ b.toNat))

/-- The bit that a right shift by one drops: bit 0 (R249). -/
def lowBitFlag (a : Byte) : Byte := a &&& 1

/-- The bit that a left shift by one drops: bit 7 (R251). -/
def highBitFlag (a : Byte) : Byte := (a >>> 7) &&& 1

end Sys2Proof.Machine
end

