-- ==== Sys2Proof/Machine/State.lean ====
section
/-! DEFINITION. The state of the core (10_state.md R30), the reasons a step can stop, and the state after reset
(70_reset_and_hazards.md R461). -/

namespace Sys2Proof.Machine

/-- run_state (R44). -/
inductive RunState where
  | running
  | paused
  | halted
deriving DecidableEq, Repr

/-- The causes of a fatal fault (60_exceptions.md R401). NONE, code 0, is the absence of one. -/
inductive FaultCause where
  /-- Code 1: 2NNN with SP = 12 (R402). -/
  | stackOverflow
  /-- Code 2: 00EE with SP = 0 (R403). -/
  | stackUnderflow
  /-- Code 3: an address above 0xFFF under ADDRESS_POLICY = fault (R90, R404). -/
  | memBounds
  /-- Code 4: a program store below 0x050 under FONT_WRITE_POLICY = fault (R91, R404). -/
  | fontWrite
  /-- Code 5: a key index above 0xF under KEY_INDEX_POLICY = fault (R366, R404). -/
  | keyRange
deriving DecidableEq, Repr

/-- key_wait, the hidden state of FX0A (R46). -/
inductive KeyWait where
  | idle
  | awaitingRelease (k : Key)
deriving DecidableEq, Repr

/-- The reasons for which a step would end without a next state: NONE. Every fatal condition of this core is entered
as 60_exceptions.md R405 describes, which is a next state in Halted with its cause, so no definition of the model
answers a fault (log 3). Safe: nothing is hidden behind a stop. -/
inductive Fault
deriving DecidableEq, Repr

/-- The reasons for which the model refuses. -/
inductive Refusal where
  /-- An instruction that has no meaning yet; raised by no arm of this model. Safe. -/
  | notModelled (mnemonic : String)
  /-- The host's set_key with a number above 0xF, which is no operation of the interface (10_state.md R62; D21, U17).
  Raised by the host operation setKey only, never by a step. Safe: no meaning is given to it. -/
  | keyNotInInterface
deriving DecidableEq, Repr

/-- The architectural state (R30), and the model's own last two fields. -/
structure State where
  /-- mem: the bytes that differ from the reset contents, by rising address (R80, R461; Machine/Memory.lean). -/
  mem        : List Host.Cell
  /-- V0..VF (R31). -/
  v          : Vector Byte 16
  /-- I (R34). -/
  i          : Word
  /-- pc: the address of the next instruction to fetch (R35). -/
  pc         : Word
  /-- stack[0..11] (R38). -/
  stack      : Vector Word 12
  /-- SP, 0..12 (R38). -/
  sp         : Fin 13
  /-- DT (R40). -/
  dt         : Byte
  /-- ST (R40). -/
  st         : Byte
  /-- key[0x0..0xF], true = pressed (R41). -/
  keys       : Vector Bool 16
  /-- fb[r][c]: H rows of W pixels, true = lit (R42). -/
  fb         : List (List Bool)
  /-- key_wait (R46). -/
  keyWait    : KeyWait
  /-- run_state (R44). -/
  runState   : RunState
  /-- fault_cause, none = NONE (R45). -/
  faultCause : Option FaultCause
  /-- MODEL'S OWN: the configuration of R9, read only (log 1). -/
  cfg        : Config
  /-- MODEL'S OWN: how many rnd draws CXNN has taken, the index of the next free value (log 2). -/
  draws      : Nat
deriving DecidableEq, Repr

/-- The reset values of R461 under the configuration `c`. Memory lists nothing: an unlisted address reads as the
reset contents, FONT below 0x050 and zero above. -/
def State.resetWith (c : Config) : State where
  mem        := []
  v          := Vector.replicate 16 0
  i          := 0
  pc         := 0
  stack      := Vector.replicate 12 0
  sp         := 0
  dt         := 0
  st         := 0
  keys       := Vector.replicate 16 false
  fb         := List.replicate c.height (List.replicate c.width false)
  keyWait    := .idle
  runState   := .running
  faultCause := none
  cfg        := c
  draws      := 0

/-- The machine right after reset under the default configuration (R460, R461). -/
def State.reset : State := State.resetWith Config.default

end Sys2Proof.Machine
end

