-- ==== Sys2Proof/Machine/Memory.lean ====
section
/-! DEFINITION. Memory as a list of cells in one canonical form: addresses strictly rising, each below 4096, and no
byte equal to what an unlisted address reads as (20_memory.md R80, R82; 70_reset_and_hazards.md R461). -/

namespace Sys2Proof.Machine

/-- What an address with no cell reads as: the reset contents, FONT at 0x000..0x04F and 0x00 above (R461). -/
def Memory.unlisted (font : Vector Byte 80) (a : Nat) : Byte := (font[a]?).getD 0

/-- The byte at address `a` (R80, R97). -/
def Memory.read (font : Vector Byte 80) : List Host.Cell → Nat → Byte
  | [], a => Memory.unlisted font a
  | (k, b) :: m, a => if k = a then b else Memory.read font m a

/-- A cell put before `m`, or none where the byte is what an unlisted address reads as. -/
def Memory.consCell (font : Vector Byte 80) (a : Nat) (b : Byte) (m : List Host.Cell) : List Host.Cell :=
  if b = Memory.unlisted font a then m else (a, b) :: m

/-- The memory after byte `b` is stored at address `a`. -/
def Memory.write (font : Vector Byte 80) : List Host.Cell → Nat → Byte → List Host.Cell
  | [], a, b => Memory.consCell font a b []
  | (k, d) :: m, a, b =>
    if a < k then Memory.consCell font a b ((k, d) :: m)
    else if a = k then Memory.consCell font a b m
    else (k, d) :: Memory.write font m a b

/-- The canonical form. -/
abbrev Memory.wf (font : Vector Byte 80) (m : List Host.Cell) : Prop :=
  m.Pairwise (fun x y => x.1 < y.1) ∧ ∀ x ∈ m, x.1 < memSize ∧ x.2 ≠ Memory.unlisted font x.1

/-- Several bytes stored at given addresses, one after another (R93). -/
def Memory.writeAll (font : Vector Byte 80) (m : List Host.Cell) : List (Nat × Byte) → List Host.Cell
  | []            => m
  | (a, b) :: ws  => Memory.writeAll font (Memory.write font m a b) ws

end Sys2Proof.Machine
end

