-- ==== Sys2Proof/Machine/Ops.lean ====
section
/-! DEFINITION. The named operations over registers, the call stack, memory and pixels, and taking a fault. -/

namespace Sys2Proof.Machine

/-- The outcome of an instruction or of a step. -/
abbrev Result := Host.Outcome State Fault Refusal

/-! ### Registers -/

/-- `V[x]` (R12, R31). -/
def State.reg (s : State) (x : Reg) : Byte := s.v[x]

/-- `V[x] <- b` (R12, R31). -/
def State.setReg (s : State) (x : Reg) (b : Byte) : State := { s with v := s.v.set x b }

/-- `V[x] <- b`, then `V[0xF] <- f`: the flag is written last, so it stays when x = 0xF (R13, R240; D7). -/
def State.setRegFlag (s : State) (x : Reg) (b f : Byte) : State := (s.setReg x b).setReg regF f

/-- pc advanced by 2 modulo 2^16, as the fetch leaves it (R201, R37). -/
def State.advance (s : State) : State := { s with pc := s.pc + 2 }

/-- pc advanced by a further 2 when the condition holds (R213). -/
def State.skipIf (s : State) (cond : Bool) : State := if cond then { s with pc := s.pc + 2 } else s

/-! ### Faults: the one exception entry of the core -/

/-- Fault entry (60_exceptions.md R405): the state before the step, but Halted and with the cause. Every check of an
instruction precedes its writes (R14), so a meaning applies this to the state it was given. There is no operation
beside it that returns from a fault: none exists (R407), and only the host's reset leaves Halted. -/
def State.takeFault (s : State) (c : FaultCause) : State :=
  { s with runState := .halted, faultCause := some c }

/-- What `raise Fault(c)` makes of an instruction begun in `s` (R12, R405): a next state. -/
def raiseFault (s : State) (c : FaultCause) : Result := .next (s.takeFault c)

/-- The end of an instruction begun in `s` whose checks gave a fault or a new state. -/
def complete (s : State) : Except FaultCause State → Result
  | .ok t    => .next t
  | .error c => raiseFault s c

/-- The numeric code of `fault_cause` (R401; D12). -/
def faultCode : Option FaultCause → Nat
  | none                 => 0
  | some .stackOverflow  => 1
  | some .stackUnderflow => 2
  | some .memBounds      => 3
  | some .fontWrite      => 4
  | some .keyRange       => 5

/-! ### The call stack -/

/-- A push: `stack[SP] <- w; SP <- SP + 1`, refused on a full stack (R38, R207). -/
def State.push (s : State) (w : Word) : Except FaultCause State :=
  if h : s.sp.val < stackDepth then
    .ok { s with stack := s.stack.set s.sp.val w h, sp := ⟨s.sp.val + 1, Nat.succ_lt_succ h⟩ }
  else .error .stackOverflow

/-- A pop into pc: `SP <- SP - 1; pc <- stack[SP]`, refused on an empty stack (R38, R205). The entry keeps its
value (R39). -/
def State.popPc (s : State) : Except FaultCause State :=
  if h : 0 < s.sp.val then
    .ok { s with pc := s.stack[s.sp.val - 1]'(by have := s.sp.isLt; omega)
                 sp := ⟨s.sp.val - 1, by have := s.sp.isLt; omega⟩ }
  else .error .stackUnderflow

/-! ### Memory -/

/-- The byte at an address of memory (R80). -/
def State.byteAt (s : State) (a : Nat) : Byte := Memory.read s.cfg.font s.mem a

/-- The memory index of an unbounded address, if it has one (R90; D3, D19). -/
def mapAddr (c : Config) (a : Nat) : Option Nat :=
  match c.addressPolicy with
  | .fault => if a ≤ 0xFFF then some a else none
  | .wrap  => some (a % memSize)

/-- The memory indexes of the `n` addresses from `base` on; none if one of them has none (R90, R280). -/
def mapBlock (c : Config) (base : Nat) : Nat → Option (List Nat)
  | 0     => some []
  | n + 1 =>
    match mapAddr c base, mapBlock c (base + 1) n with
    | some a, some as => some (a :: as)
    | _, _            => none

/-- The `n` bytes from address `base` on, every address checked first (R90, R14). -/
def State.readBlock (s : State) (base n : Nat) : Except FaultCause (List Byte) :=
  match mapBlock s.cfg base n with
  | some as => .ok (as.map s.byteAt)
  | none    => .error .memBounds

/-- The stores of a block that are made: all, but for those into the font when FONT_WRITE_POLICY = ignore (R91). -/
def storesMade (c : Config) (ws : List (Nat × Byte)) : List (Nat × Byte) :=
  match c.fontWritePolicy with
  | .ignore => ws.filter (fun w => fontEnd ≤ w.1)
  | _       => ws

/-- Whether a block of mapped addresses meets the font under FONT_WRITE_POLICY = fault (R91; D4). -/
def fontFault (c : Config) (as : List Nat) : Bool :=
  c.fontWritePolicy == .fault && as.any (fun a => decide (a < fontEnd))

/-- A program's store of bytes from address `base` on (FX33, FX55): MEM_BOUNDS of every address, then FONT_WRITE of
any, then the writes in ascending order (R90, R91, R406). -/
def State.writeBlock (s : State) (base : Nat) (bytes : List Byte) : Except FaultCause State :=
  match mapBlock s.cfg base bytes.length with
  | none    => .error .memBounds
  | some as =>
    if fontFault s.cfg as then .error .fontWrite
    else .ok { s with mem := Memory.writeAll s.cfg.font s.mem (storesMade s.cfg (as.zip bytes)) }

/-! ### Pixels -/

/-- `fb[r][c]`; a pixel outside the grid reads as false (R42). -/
def pixelOf (fb : List (List Bool)) (r c : Nat) : Bool := (fb.getD r []).getD c false

/-- The pixel `fb[r][c]` of a state (R12). -/
def State.pixel (s : State) (r c : Nat) : Bool := pixelOf s.fb r c

/-- `fb[r][c] <- not fb[r][c]` (R322). -/
def flipPixel (fb : List (List Bool)) (r c : Nat) : List (List Bool) :=
  fb.modify r (fun row => row.modify c not)

/-- The columns offsets j = 0..7 of a sprite byte whose bit 7 - j is 1, most significant first (R320, R322). -/
def spriteColumns (b : Byte) : List Nat :=
  (List.range 8).filter (fun j => (b >>> (7 - j)) &&& 1 == 1)

/-- The pixels (row, column) that one sprite byte touches on row `row`, each column reduced modulo W (R322, R324). -/
def spriteRowPixels (c : Config) (ox row : Nat) (b : Byte) : List (Nat × Nat) :=
  (spriteColumns b).map (fun j => (row % c.height, (ox + j) % c.width))

/-- The pixels that the rows of a sprite touch, in the order of R322's loops, from row `row` on; each row is reduced
modulo H (R324, R326). -/
def spritePixels (c : Config) (ox row : Nat) : List Byte → List (Nat × Nat)
  | []      => []
  | b :: bs => spriteRowPixels c ox row b ++ spritePixels c ox (row + 1) bs

/-- XOR of the given pixels one after another, with the collision so far: a pixel lit at its visit sets it (R322,
R323, R326). -/
def blit : List (Nat × Nat) → List (List Bool) × Bool → List (List Bool) × Bool
  | [], acc              => acc
  | (r, c) :: ps, (fb, hit) => blit ps (flipPixel fb r c, hit || pixelOf fb r c)

end Sys2Proof.Machine
end

