-- ==== Sys2Proof/Machine/Operands.lean ====
section
/-! DEFINITION. The operand forms: immediates, the index-plus-offset address, the shift source, the key index, the
pressed key and the decimal digits (30_encoding.md R124; 42_index_memory.md R280; 41_alu.md R249; 44 R366, R363). -/

namespace Sys2Proof.Machine

/-- `zext_16(NNN)` (R12, R124). -/
def zextAddr (nnn : Addr12) : Word := nnn.setWidth 16

/-- `zext_16(V[x])` (R12). -/
def zextByte (b : Byte) : Word := b.setWidth 16

/-- The base of the only data addressing mode: I as an unbounded address (R280; D19). -/
def State.indexBase (s : State) : Nat := s.i.toNat

/-- The operand of 8XY6 and 8XYE: VY, or VX where SHIFT_SOURCE = VX (R249, R251; C7). -/
def State.shiftSrc (s : State) (x y : Reg) : Byte :=
  match s.cfg.shiftSource with
  | .vy => s.reg y
  | .vx => s.reg x

/-- `keyidx(v)` (R366; D10). -/
def keyIdx (c : Config) (v : Byte) : Except FaultCause Key :=
  if h : v.toNat < 16 then .ok ⟨v.toNat, h⟩
  else match c.keyIndexPolicy with
    | .fault => .error .keyRange
    | .mask  => .ok (v.extractLsb' 0 4).toFin

/-- The lowest pressed key, if any is pressed (R363 corner case (c); D9). -/
def firstPressed (keys : Vector Bool 16) : Option Key := (List.finRange 16).find? (fun k => keys[k])

/-- The decimal digits of a byte: hundreds, tens, ones (R284). -/
def decimalDigits (b : Byte) : List Byte :=
  [BitVec.ofNat 8 (b.toNat / 100), BitVec.ofNat 8 (b.toNat / 10 % 10), BitVec.ofNat 8 (b.toNat % 10)]

/-- The registers V0..VX in order, the bytes FX55 stores (R285). -/
def State.regsUpTo (s : State) (x : Reg) : List Byte := s.v.toList.take (x.val + 1)

/-- The registers V0, V1, ... replaced by the given bytes as far as they go (R286). -/
def State.loadRegs (s : State) (bytes : List Byte) : State :=
  { s with v := Vector.ofFn (fun k : Fin 16 => (bytes[k.val]?).getD s.v[k]) }

/-- The post-increment of I by FX55 and FX65: X + 1 modulo 2^16 where LDST_INCREMENT_I (R285, R286; C8). -/
def State.bumpIndex (s : State) (x : Reg) : State :=
  if s.cfg.ldstIncrementI then { s with i := s.i + BitVec.ofNat 16 (x.val + 1) } else s

end Sys2Proof.Machine
end

