-- ==== Sys2Proof/Machine/Alu.lean ====
section
/-! DEFINITION. Register loads, the ALU and the random byte (41_alu.md R240 to R253). -/

namespace Sys2Proof.Machine

/-- 6XNN LD VX, NN (R241). -/
def execLdImm (x : Reg) (nn : Byte) (s : State) : Result := .next (s.advance.setReg x nn)

/-- 7XNN ADD VX, NN (R242): no flag. -/
def execAddImm (x : Reg) (nn : Byte) (s : State) : Result := .next (s.advance.setReg x (s.reg x + nn))

/-- 8XY0 LD VX, VY (R243). -/
def execLdReg (x y : Reg) (s : State) : Result := .next (s.advance.setReg x (s.reg y))

/-- 8XY1 OR VX, VY (R244; D8): no flag. -/
def execOr (x y : Reg) (s : State) : Result := .next (s.advance.setReg x (s.reg x ||| s.reg y))

/-- 8XY2 AND VX, VY (R245; D8): no flag. -/
def execAnd (x y : Reg) (s : State) : Result := .next (s.advance.setReg x (s.reg x &&& s.reg y))

/-- 8XY3 XOR VX, VY (R246; D8): no flag. -/
def execXor (x y : Reg) (s : State) : Result := .next (s.advance.setReg x (s.reg x ^^^ s.reg y))

/-- 8XY4 ADD VX, VY (R247). -/
def execAddReg (x y : Reg) (s : State) : Result :=
  .next (s.advance.setRegFlag x (s.reg x + s.reg y) (carryFlag (s.reg x) (s.reg y)))

/-- 8XY5 SUB VX, VY (R248). -/
def execSub (x y : Reg) (s : State) : Result :=
  .next (s.advance.setRegFlag x (s.reg x - s.reg y) (notBorrowFlag (s.reg x) (s.reg y)))

/-- 8XY6 SHR VX, VY (R249). -/
def execShr (x y : Reg) (s : State) : Result :=
  .next (s.advance.setRegFlag x (s.shiftSrc x y >>> 1) (lowBitFlag (s.shiftSrc x y)))

/-- 8XY7 SUBN VX, VY (R250). -/
def execSubn (x y : Reg) (s : State) : Result :=
  .next (s.advance.setRegFlag x (s.reg y - s.reg x) (notBorrowFlag (s.reg y) (s.reg x)))

/-- 8XYE SHL VX, VY (R251). -/
def execShl (x y : Reg) (s : State) : Result :=
  .next (s.advance.setRegFlag x (s.shiftSrc x y <<< 1) (highBitFlag (s.shiftSrc x y)))

/-- CXNN with the draw given: `V[X] <- rnd & NN` (R253). -/
def rndWith (draw : Byte) (x : Reg) (nn : Byte) (s : State) : State := s.advance.setReg x (draw &&& nn)

/-- CXNN RND VX, NN (R253; D17): the draw is the next free value, and the next execution takes another one. -/
def execRnd (x : Reg) (nn : Byte) (s : State) : Result :=
  .next { rndWith (Config.rnd s.draws) x nn s with draws := s.draws + 1 }

end Sys2Proof.Machine
end

