-- ==== Sys2Proof/Machine/Control.lean ====
section
/-! DEFINITION. Control transfer (40_control_flow.md R205 to R215) and the unassigned no-op (30_encoding.md R131).
Each meaning starts from the state before the step, with pc at the instruction. -/

namespace Sys2Proof.Machine

/-- 00EE RET (R205; C5). -/
def execRet (s : State) : Result := complete s s.advance.popPc

/-- 1NNN JP (R206). -/
def execJp (nnn : Addr12) (s : State) : Result := .next { s.advance with pc := zextAddr nnn }

/-- 2NNN CALL (R207): the pushed address is the advanced pc. -/
def execCall (nnn : Addr12) (s : State) : Result :=
  complete s ((s.advance.push s.advance.pc).map fun t => { t with pc := zextAddr nnn })

/-- 3XNN SE VX, NN (R208). -/
def execSeImm (x : Reg) (nn : Byte) (s : State) : Result := .next (s.advance.skipIf (s.reg x == nn))

/-- 4XNN SNE VX, NN (R209). -/
def execSneImm (x : Reg) (nn : Byte) (s : State) : Result := .next (s.advance.skipIf (s.reg x != nn))

/-- 5XY0 SE VX, VY (R210). -/
def execSeReg (x y : Reg) (s : State) : Result := .next (s.advance.skipIf (s.reg x == s.reg y))

/-- 9XY0 SNE VX, VY (R211). -/
def execSneReg (x y : Reg) (s : State) : Result := .next (s.advance.skipIf (s.reg x != s.reg y))

/-- BNNN JP V0, NNN (R212; D18): the register is V0, and the sum is not reduced to 12 bits. -/
def execJpV0 (nnn : Addr12) (s : State) : Result :=
  .next { s.advance with pc := zextAddr nnn + zextByte (s.reg reg0) }

/-- A word that matches no row: only pc advances (R131). -/
def execUnassigned (s : State) : Result := .next s.advance

end Sys2Proof.Machine
end

