-- ==== Sys2Proof/Machine/Display.lean ====
section
/-! DEFINITION. The framebuffer and the sprite blitter (43_display.md R320 to R326). -/

namespace Sys2Proof.Machine

/-- A framebuffer of W×H pixels, all false (R321). -/
def clearFb (c : Config) : List (List Bool) := List.replicate c.height (List.replicate c.width false)

/-- 00E0 CLS (R321). -/
def execCls (s : State) : Result := .next { s.advance with fb := clearFb s.cfg }

/-- The framebuffer and the collision after the sprite `bytes` is drawn at the origin that VX and VY give (R322). -/
def State.drawSprite (s : State) (x y : Reg) (bytes : List Byte) : List (List Bool) × Bool :=
  blit (spritePixels s.cfg ((s.reg x).toNat % s.cfg.width) ((s.reg y).toNat % s.cfg.height) bytes) (s.fb, false)

/-- DXYN DRW VX, VY, N (R322 to R326; C3, C4, D27): the origin is read from the old registers, VF ends as the
collision. -/
def execDrw (x y : Reg) (n : Nibble) (s : State) : Result :=
  complete s ((s.readBlock s.indexBase n.toNat).map fun bytes =>
    { s.advance with fb := (s.drawSprite x y bytes).1 }.setReg regF (flagByte (s.drawSprite x y bytes).2))

end Sys2Proof.Machine
end

