-- ==== Sys2Proof/Machine/Index.lean ====
section
/-! DEFINITION. The index register and memory transfers (42_index_memory.md R280 to R286). -/

namespace Sys2Proof.Machine

/-- ANNN LD I, NNN (R281). -/
def execLdI (nnn : Addr12) (s : State) : Result := .next { s.advance with i := zextAddr nnn }

/-- FX1E ADD I, VX (R282; D18): modulo 2^16, no flag. -/
def execAddI (x : Reg) (s : State) : Result := .next { s.advance with i := s.i + zextByte (s.reg x) }

/-- FX29 LD F, VX (R283; D26): VX is not masked. -/
def execLdF (x : Reg) (s : State) : Result := .next { s.advance with i := zextByte (s.reg x) * 5 }

/-- FX33 LD B, VX (R284). -/
def execLdB (x : Reg) (s : State) : Result :=
  complete s (s.advance.writeBlock s.indexBase (decimalDigits (s.reg x)))

/-- FX55 LD [I], VX (R285). -/
def execStRegs (x : Reg) (s : State) : Result :=
  complete s ((s.advance.writeBlock s.indexBase (s.regsUpTo x)).map fun t => t.bumpIndex x)

/-- FX65 LD VX, [I] (R286). -/
def execLdRegs (x : Reg) (s : State) : Result :=
  complete s ((s.readBlock s.indexBase (x.val + 1)).map fun bytes => (s.advance.loadRegs bytes).bumpIndex x)

end Sys2Proof.Machine
end

