-- ==== Sys2Proof/Machine/KeysTimers.lean ====
section
/-! DEFINITION. Key and timer instructions (44_timers_input.md R360 to R366). -/

namespace Sys2Proof.Machine

/-- EX9E SKP VX (R360). -/
def execSkp (x : Reg) (s : State) : Result :=
  complete s ((keyIdx s.cfg (s.reg x)).map fun k => s.advance.skipIf s.keys[k])

/-- EXA1 SKNP VX (R361). -/
def execSknp (x : Reg) (s : State) : Result :=
  complete s ((keyIdx s.cfg (s.reg x)).map fun k => s.advance.skipIf (!s.keys[k]))

/-- FX07 LD VX, DT (R362). -/
def execLdVxDt (x : Reg) (s : State) : Result := .next (s.advance.setReg x s.dt)

/-- FX15 LD DT, VX (R364). -/
def execLdDt (x : Reg) (s : State) : Result := .next { s.advance with dt := s.reg x }

/-- FX18 LD ST, VX (R365). -/
def execLdSt (x : Reg) (s : State) : Result := .next { s.advance with st := s.reg x }

/-- FX0A's rewind: the advanced pc less 2, so that the next step runs the same word (R363; C6). -/
def State.block (s : State) : State := { s with pc := s.pc - 2 }

/-- FX0A LD VX, K (R363; C2, C6, D9). -/
def execLdK (x : Reg) (s : State) : Result :=
  match s.keyWait with
  | .idle =>
    match firstPressed s.keys with
    | some k => .next { s.advance.block with keyWait := .awaitingRelease k }
    | none   => .next s.advance.block
  | .awaitingRelease k =>
    if s.keys[k] then .next s.advance.block
    else .next { s.advance.setReg x (BitVec.ofNat 8 k.val) with keyWait := .idle }

end Sys2Proof.Machine
end

