-- ==== Sys2Proof/Machine/Fetch.lean ====
section
/-! DEFINITION. Fetching an instruction's word (40_control_flow.md R200, R201). -/

namespace Sys2Proof.Machine

/-- The word at pc: the bytes at pc and pc + 1 (an unbounded sum), each address checked or wrapped by R90, combined
big-endian (R92, R201). -/
def State.fetch (s : State) : Except FaultCause Word :=
  match mapAddr s.cfg s.pc.toNat, mapAddr s.cfg (s.pc.toNat + 1) with
  | some a, some b => .ok (wordOfBytes (s.byteAt a) (s.byteAt b))
  | _, _           => .error .memBounds

end Sys2Proof.Machine
end

