-- ==== Sys2Proof/Machine/Step.lean ====
section
/-! DEFINITION. The host operation step (40_control_flow.md R200 to R204), and placing one instruction. -/

namespace Sys2Proof.Machine

/-- One fetch-decode-execute cycle (R200): nothing outside Running (R204; D13); a fault of the fetch is entered as
any other (R405); an unassigned word is a no-op (R131). -/
def step (s : State) : Host.Outcome State Fault Refusal :=
  match s.runState with
  | .running =>
    match s.fetch with
    | .error c => raiseFault s c
    | .ok op =>
      match decode s.cfg op with
      | .instr i      => exec i s
      | .unassigned _ => execUnassigned s
  | .paused => .next s
  | .halted => .next s

/-- `s` with one instruction word loaded at the entry point, as the host's load would put it there, and pc at it, so
that the next step runs it: the two bytes, pc = 0x200 and Running, nothing else (R470; log 15). -/
def State.withFetchWord (s : State) (nbits w : Nat) : State :=
  { s with
    mem := Memory.writeAll s.cfg.font s.mem
      ((List.range' entryPoint 2).zip (bytesOfWord (tableWord nbits w)))
    pc := BitVec.ofNat 16 entryPoint
    runState := .running }

end Sys2Proof.Machine
end

