-- ==== Sys2Proof/Machine/HostOps.lean ====
section
/-! DEFINITION. The other host operations and the outputs of the core (10_state.md R60 to R62; 60_exceptions.md R420
to R435; 70_reset_and_hazards.md R460, R470). -/

namespace Sys2Proof.Machine

/-- reset, in every run state (R460, R461). The configuration stays the machine's own, and the count of draws goes
on, so that no law relates the draws before and after (R253; log 2). -/
def State.hostReset (s : State) : State := { State.resetWith s.cfg with draws := s.draws }

/-- The result of load (R60, R470). -/
inductive LoadResult where
  | ok
  | programTooLarge
deriving DecidableEq, Repr

/-- load(prog) (R470, R471; D15). -/
def State.load (s : State) (prog : List Byte) : LoadResult × State :=
  if prog.length ≤ maxProgram then
    (.ok, { s with
      mem     := Memory.writeAll s.cfg.font s.mem ((List.range' entryPoint prog.length).zip prog)
      pc      := BitVec.ofNat 16 entryPoint
      sp      := 0
      keyWait := .idle })
  else (.programTooLarge, s)

/-- A timer after one tick: one less, but never below 0 (R40, R420). -/
def tickByte (b : Byte) : Byte := if b = 0 then 0 else b - 1

/-- tick_timers, in every run state (R420, R421; D14). -/
def State.tickTimers (s : State) : State := { s with dt := tickByte s.dt, st := tickByte s.st }

/-- set_key(k, b) in every run state, refused for a number that is no key (R425, R62; D21). -/
def State.setKey (s : State) (k : Nat) (b : Bool) : Result :=
  if h : k < 16 then .next { s with keys := s.keys.set k b h } else .refused .keyNotInInterface

/-- The run state after set_paused(b) (R435; D13). -/
def RunState.setPaused (b : Bool) : RunState → RunState
  | .halted => .halted
  | _       => if b then .paused else .running

/-- set_paused(b) (R435). -/
def State.setPaused (s : State) (b : Bool) : State := { s with runState := s.runState.setPaused b }

/-- The host operations (R60). -/
inductive HostOp where
  | reset
  | load (prog : List Byte)
  | step
  | tickTimers
  | setKey (k : Nat) (b : Bool)
  | setPaused (b : Bool)
deriving DecidableEq, Repr

/-- One host operation, indivisible (R61). -/
def State.apply (s : State) : HostOp → Result
  | .reset       => .next s.hostReset
  | .load prog   => .next (s.load prog).2
  | .step        => Sys2Proof.Machine.step s
  | .tickTimers  => .next s.tickTimers
  | .setKey k b  => s.setKey k b
  | .setPaused b => .next (s.setPaused b)

/-- Host operations in the order the host issues them, in any interleaving (R61). -/
def State.applyAll (s : State) : List HostOp → Result
  | []       => .next s
  | op :: ops =>
    match s.apply op with
    | .next t    => t.applyAll ops
    | .fault r   => .fault r
    | .refused r => .refused r

/-! ### Outputs (R430): reading one changes nothing -/

/-- The framebuffer view (R431). -/
def State.framebufferView (s : State) : List (List Bool) := s.fb

/-- sound_active = (ST > 0) (R422). -/
def State.soundActive (s : State) : Bool := decide (s.st.toNat > 0)

/-- The outputs together: framebuffer view, sound_active, run_state, fault_cause as its code (R430, R401; D28). -/
structure Outputs where
  framebuffer : List (List Bool)
  soundActive : Bool
  runState    : RunState
  faultCause  : Nat
deriving DecidableEq, Repr

/-- What the host reads of a state (R430). -/
def State.outputs (s : State) : Outputs where
  framebuffer := s.framebufferView
  soundActive := s.soundActive
  runState    := s.runState
  faultCause  := faultCode s.faultCause

end Sys2Proof.Machine
end

