-- ==== Sys2Proof/WellFormed.lean ====
section
/-! DEFINITION. The checks on what is given to the machine from outside: a configuration (R8), a program (R471)
and a key number of the host (R62). An instruction needs no check: every operand of `Instr` is typed by the width
of its field (30_encoding.md R122), so an ill-formed instruction cannot be written. -/

namespace Sys2Proof

/-- The framebuffer has at least one column and one row (R8: W ≥ 1 and H ≥ 1). -/
abbrev Config.WellFormed (c : Config) : Prop := 1 ≤ c.width ∧ 1 ≤ c.height

/-- A program fits between the entry point and the end of memory (R471). -/
abbrev ProgramWellFormed (prog : List Byte) : Prop := prog.length ≤ maxProgram

/-- The interface has the keys 0x0..0xF only (R41, R62). -/
abbrev KeyNumberWellFormed (k : Nat) : Prop := k < 16

end Sys2Proof
end

