-- ==== Sys2Proof/Safety.lean ====
section
/-! DEFINITION. The terms that claims use: the invariant of the machine, the two ends of a run (70 R477), and frames. -/

namespace Sys2Proof.Machine

/-- The framebuffer is a grid of H rows of W pixels (10_state.md R42). -/
abbrev State.GridWf (s : State) : Prop :=
  s.fb.length = s.cfg.height ∧ ∀ row ∈ s.fb, row.length = s.cfg.width

/-- What every state the machine reaches satisfies: a legal configuration (R8), memory in canonical form, a
framebuffer of W×H pixels (R42), and a recorded cause exactly in Halted (R44, R45). -/
structure State.Inv (s : State) : Prop where
  cfg   : s.cfg.WellFormed
  mem   : Memory.wf s.cfg.font s.mem
  grid  : s.GridWf
  cause : s.runState = .halted ↔ s.faultCause ≠ none

/-- The font region holds FONT (20_memory.md R82, R84). -/
def State.FontIntact (s : State) : Prop := ∀ a, (h : a < fontEnd) → s.byteAt a = s.cfg.font[a]

/-- Faulted end (R477). -/
def State.FaultedEnd (s : State) : Prop := s.runState = .halted

/-- Parked end: Running, and the word at pc is 1NNN with NNN = pc (R477). -/
def State.ParkedEnd (s : State) : Prop :=
  s.runState = .running ∧ ∃ op nnn, s.fetch = .ok op ∧ decode s.cfg op = .instr (.jp nnn) ∧ zextAddr nnn = s.pc

/-- No fault recorded (R477): the premise of a claim about a program's result. -/
def State.NoFault (s : State) : Prop := s.faultCause = none

/-- What a frame lets change, beside pc: the registers and memory addresses it names, and whole fields. -/
structure Touched where
  regs   : Reg → Prop := fun _ => False
  bytes  : Nat → Prop := fun _ => False
  index  : Prop := False
  stack  : Prop := False
  delay  : Prop := False
  sound  : Prop := False
  pixels : Prop := False
  wait   : Prop := False
  fault  : Prop := False
  draws  : Prop := False

/-- `t` is `s` but for pc and what `w` names. The key latch and the configuration are never named: no instruction
writes them (R41, R9). -/
structure Frame (w : Touched) (s t : State) : Prop where
  regs   : ∀ r, ¬ w.regs r → t.reg r = s.reg r
  bytes  : ∀ a, ¬ w.bytes a → t.byteAt a = s.byteAt a
  index  : ¬ w.index → t.i = s.i
  stack  : ¬ w.stack → t.stack = s.stack ∧ t.sp = s.sp
  delay  : ¬ w.delay → t.dt = s.dt
  sound  : ¬ w.sound → t.st = s.st
  pixels : ¬ w.pixels → t.fb = s.fb
  wait   : ¬ w.wait → t.keyWait = s.keyWait
  fault  : ¬ w.fault → t.runState = s.runState ∧ t.faultCause = s.faultCause
  draws  : ¬ w.draws → t.draws = s.draws
  keys   : t.keys = s.keys
  cfg    : t.cfg = s.cfg

end Sys2Proof.Machine
end

