-- ==== Sys2Proof/Certificates/Slice0/Obligations.lean ====
section
/-! DEFINITION. The statements for the provers, from the numbered rules of spec/, and the terms they are written in. -/

namespace Sys2Proof.Claims

open Sys2Proof.Machine

/-- Every word whose bits under `mask` are `pat` decodes, under every configuration, to what `build` reads from it:
one row of the opcode table (30_encoding.md R125). -/
def Selects (mask pat : Word) (build : Word → Instr) : Prop :=
  ∀ c op, op &&& mask = pat → decode c op = .instr (build op)

/-- A row of 5XY0 or 9XY0: the low nibble counts exactly when DECODE_5_9_STRICT (R127). -/
def Selects59 (pat : Word) (build : Word → Instr) : Prop :=
  ∀ (c : Config) op, (c.decode59Strict = true → op &&& 0xF00F = pat → decode c op = .instr (build op)) ∧
    (c.decode59Strict = false → op &&& 0xF000 = pat → decode c op = .instr (build op))

/-- `t` is `s` but for pc advanced by 2 and the registers `w` names. -/
def OnlyRegs (w : Reg → Prop) (s t : State) : Prop :=
  t = { s with pc := s.pc + 2, v := t.v } ∧ ∀ r, ¬ w r → t.reg r = s.reg r

/-- Fault entry, field by field (60_exceptions.md R405). -/
def Faults (i : Instr) (s : State) (c : FaultCause) : Prop :=
  exec i s = .next { s with runState := .halted, faultCause := some c }

/-- The `n` addresses from `base` on exist, and `f` gives the memory index of each (20_memory.md R90). -/
def Mapped (c : Config) (base n : Nat) (f : Nat → Nat) : Prop :=
  ∀ k < n, mapAddr c (base + k) = some (f k)

/-- Under FONT_WRITE_POLICY = fault no index of the block lies in the font (20_memory.md R91). -/
def StoreAllowed (c : Config) (n : Nat) (f : Nat → Nat) : Prop :=
  c.fontWritePolicy = .fault → ∀ k < n, fontEnd ≤ f k

/-- What index `a` holds after a program stored `b` there: `b`, but the old byte where the policy ignores it (R91). -/
def Stored (s t : State) (a : Nat) (b : Byte) : Prop :=
  t.byteAt a = if s.cfg.fontWritePolicy = .ignore ∧ a < fontEnd then s.byteAt a else b

/-- Bit 7 - j of the sprite byte of row k (43_display.md R322). -/
def spriteBit (s : State) (f : Nat → Nat) (k j : Nat) : Bool := (s.byteAt (f k) >>> (7 - j)) &&& 1 == 1

/-- The row that sprite row k is drawn on (R322, R324). -/
def drawRow (s : State) (y : Reg) (k : Nat) : Nat := ((s.reg y).toNat % s.cfg.height + k) % s.cfg.height

/-- The column that sprite bit j is drawn on (R322, R324). -/
def drawCol (s : State) (x : Reg) (j : Nat) : Nat := ((s.reg x).toNat % s.cfg.width + j) % s.cfg.width

/-- How many set bits (k', j') of the first `n` sprite rows, of those `before` picks, fall on the pixel (r, c). -/
def hits (s : State) (x y : Reg) (n : Nat) (f : Nat → Nat) (before : Nat → Nat → Bool) (r c : Nat) : Nat :=
  ((List.range n).flatMap (fun k => (List.range 8).map (fun j => (k, j)))).countP (fun p =>
    spriteBit s f p.1 p.2 && before p.1 p.2 && drawRow s y p.1 == r && drawCol s x p.2 == c)

/-- Some set bit meets a pixel that is lit when that bit is processed, after all bits before it (R323, R326). -/
def Collides (s : State) (x y : Reg) (n : Nat) (f : Nat → Nat) : Prop :=
  ∃ k < n, ∃ j < 8, spriteBit s f k j = true ∧
    (s.pixel (drawRow s y k) (drawCol s x j) ^^
      decide (hits s x y n f (fun k' j' => decide (k' < k) || (k' == k && decide (j' < j)))
        (drawRow s y k) (drawCol s x j) % 2 = 1)) = true

/-- The instruction a word selects by its top nibble and its secondary field, rule by rule (R125 to R130). -/
def selectByNibble (c : Config) (op : Word) : Decoded :=
  let x := fieldX op
  let y := fieldY op
  match (op.extractLsb' 12 4).toNat with
  | 0x0 => if op = 0x00E0 then .instr .cls else if op = 0x00EE then .instr .ret else .unassigned op
  | 0x1 => .instr (.jp (fieldNNN op))
  | 0x2 => .instr (.call (fieldNNN op))
  | 0x3 => .instr (.seImm x (fieldNN op))
  | 0x4 => .instr (.sneImm x (fieldNN op))
  | 0x5 => if c.decode59Strict ∧ fieldN op ≠ 0 then .unassigned op else .instr (.seReg x y)
  | 0x6 => .instr (.ldImm x (fieldNN op))
  | 0x7 => .instr (.addImm x (fieldNN op))
  | 0x8 =>
    match (fieldN op).toNat with
    | 0x0 => .instr (.ldReg x y)
    | 0x1 => .instr (.or x y)
    | 0x2 => .instr (.and x y)
    | 0x3 => .instr (.xor x y)
    | 0x4 => .instr (.addReg x y)
    | 0x5 => .instr (.sub x y)
    | 0x6 => .instr (.shr x y)
    | 0x7 => .instr (.subn x y)
    | 0xE => .instr (.shl x y)
    | _   => .unassigned op
  | 0x9 => if c.decode59Strict ∧ fieldN op ≠ 0 then .unassigned op else .instr (.sneReg x y)
  | 0xA => .instr (.ldI (fieldNNN op))
  | 0xB => .instr (.jpV0 (fieldNNN op))
  | 0xC => .instr (.rnd x (fieldNN op))
  | 0xD => .instr (.drw x y (fieldN op))
  | 0xE =>
    match (fieldNN op).toNat with
    | 0x9E => .instr (.skp x)
    | 0xA1 => .instr (.sknp x)
    | _    => .unassigned op
  | _   =>
    match (fieldNN op).toNat with
    | 0x07 => .instr (.ldVxDt x)
    | 0x0A => .instr (.ldK x)
    | 0x15 => .instr (.ldDt x)
    | 0x18 => .instr (.ldSt x)
    | 0x1E => .instr (.addI x)
    | 0x29 => .instr (.ldF x)
    | 0x33 => .instr (.ldB x)
    | 0x55 => .instr (.stRegs x)
    | 0x65 => .instr (.ldRegs x)
    | _    => .unassigned op

/-- The fault causes an instruction can raise (60_exceptions.md R401). -/
def causesOf : Instr → List FaultCause
  | .ret                    => [.stackUnderflow]
  | .call _                 => [.stackOverflow]
  | .drw _ _ _ | .ldRegs _  => [.memBounds]
  | .ldB _ | .stRegs _      => [.memBounds, .fontWrite]
  | .skp _ | .sknp _        => [.keyRange]
  | _                       => []

/-- The instructions that write VF as a side effect (10_state.md R32). -/
def writesFlag : Instr → Bool
  | .addReg _ _ | .sub _ _ | .shr _ _ | .subn _ _ | .shl _ _ | .drw _ _ _ => true
  | _ => false

/-- The register an instruction names as its destination X, if it has one (10_state.md R32). -/
def destination : Instr → Option Reg
  | .ldImm x _ | .addImm x _ | .rnd x _ => some x
  | .ldReg x _ | .or x _ | .and x _ | .xor x _ => some x
  | .addReg x _ | .sub x _ | .shr x _ | .subn x _ | .shl x _ => some x
  | .ldVxDt x | .ldK x | .ldRegs x => some x
  | _ => none

/-- What a register instruction may change beside pc: its destination, and VF where R32 says so (41_alu.md; FX07). -/
def touchedByAlu : Instr → Option Touched
  | .ldImm x _ | .addImm x _ | .ldReg x _ | .or x _ | .and x _ | .xor x _ | .ldVxDt x => some { regs := (· = x) }
  | .addReg x _ | .sub x _ | .shr x _ | .subn x _ | .shl x _ => some { regs := fun r => r = x ∨ r = 15 }
  | .rnd x _ => some { regs := (· = x), draws := True }
  | _ => none

/-- What a control transfer, a key instruction or a timer write may change beside pc (40_control_flow.md; 44). -/
def touchedByControl : Instr → Option Touched
  | .jp _ | .jpV0 _ | .seImm _ _ | .sneImm _ _ | .seReg _ _ | .sneReg _ _ => some {}
  | .ret | .call _ => some { stack := True, fault := True }
  | .skp _ | .sknp _ => some { fault := True }
  | .ldK x => some { regs := (· = x), wait := True }
  | .ldDt _ => some { delay := True }
  | .ldSt _ => some { sound := True }
  | _ => none

/-- What an index, memory or display instruction may change beside pc, given the state it starts from: the stores of
FX33 and FX55 go to the indexes of I + k (42_index_memory.md; 43_display.md). -/
def touchedByMemory (s : State) : Instr → Option Touched
  | .ldI _ | .addI _ | .ldF _ => some { index := True }
  | .ldB _ => some { bytes := fun a => ∃ k < 3, mapAddr s.cfg (s.i.toNat + k) = some a, fault := True }
  | .stRegs x =>
    some { bytes := fun a => ∃ k ≤ x.val, mapAddr s.cfg (s.i.toNat + k) = some a
           index := s.cfg.ldstIncrementI = true, fault := True }
  | .ldRegs x => some { regs := (· ≤ x), index := s.cfg.ldstIncrementI = true, fault := True }
  | .cls => some { pixels := True }
  | .drw _ _ _ => some { regs := (· = 15), pixels := True, fault := True }
  | _ => none

end Sys2Proof.Claims

open Sys2Proof Sys2Proof.Machine Sys2Proof.Claims

/-! ### Encoding -/

/-- Every instruction's word decodes to it with every operand, under every configuration (R122, R123, R125, R134). -/
def Obligations.EncodedInstructionDecodesBack : Prop := ∀ c i, decode c (encode i) = .instr i

/-- Under DECODE_5_9_STRICT each assigned word is the word of its one instruction, so no bit of it is dropped (R123,
R125, R127; the choice of bits in 5 and 9 is the spec's decision D6). -/
def Obligations.DecodedWordEncodesBack : Prop :=
  ∀ (c : Config) op i, c.decode59Strict = true → decode c op = .instr i → encode i = op

/-- Words written out in the spec's own examples decode to the instructions they stand for (R134; 95 §2). -/
def Obligations.SpecWordsDecode : Prop :=
  decode Config.default 0x00E0 = .instr .cls ∧ decode Config.default 0x2210 = .instr (.call 0x210) ∧
  decode Config.default 0x5340 = .instr (.seReg 3 4) ∧ decode Config.default 0x6A9C = .instr (.ldImm 0xA 0x9C) ∧
  decode Config.default 0x812E = .instr (.shl 1 2) ∧ decode Config.default 0xC30F = .instr (.rnd 3 0x0F) ∧
  decode Config.default 0xD012 = .instr (.drw 0 1 2) ∧ decode Config.default 0xE5A1 = .instr (.sknp 5) ∧
  decode Config.default 0xF255 = .instr (.stRegs 2) ∧ decode Config.default 0x0123 = .unassigned 0x0123 ∧
  decode Config.default 0x5121 = .unassigned 0x5121 ∧ decode Config.default 0x8128 = .unassigned 0x8128

/-- Decoding by the table's rows is the dispatch on the top nibble and the secondary field of R126 to R130 (their
choice of bits is the spec's decisions D5 and D6). -/
def Obligations.DecodeDispatchesByNibbles : Prop := ∀ c op, decode c op = selectByNibble c op

/-- Top nibble 8 (R128). -/
def Obligations.EightGroupSelectsByLowNibble : Prop :=
  ∀ c op, op.extractLsb' 12 4 = 8 →
    ((fieldN op = 0x0 → decode c op = .instr (.ldReg (fieldX op) (fieldY op))) ∧
     (fieldN op = 0x1 → decode c op = .instr (.or (fieldX op) (fieldY op))) ∧
     (fieldN op = 0x2 → decode c op = .instr (.and (fieldX op) (fieldY op))) ∧
     (fieldN op = 0x3 → decode c op = .instr (.xor (fieldX op) (fieldY op))) ∧
     (fieldN op = 0x4 → decode c op = .instr (.addReg (fieldX op) (fieldY op))) ∧
     (fieldN op = 0x5 → decode c op = .instr (.sub (fieldX op) (fieldY op))) ∧
     (fieldN op = 0x6 → decode c op = .instr (.shr (fieldX op) (fieldY op))) ∧
     (fieldN op = 0x7 → decode c op = .instr (.subn (fieldX op) (fieldY op))) ∧
     (fieldN op = 0xE → decode c op = .instr (.shl (fieldX op) (fieldY op))) ∧
     (fieldN op ∈ [0x8, 0x9, 0xA, 0xB, 0xC, 0xD, 0xF] → decode c op = .unassigned op))

/-! ### The step -/

/-- A step in Running whose two bytes decode to an instruction is exec of it at that state: exec itself moves pc past
the word, and the step adds nothing around it (R200, R202). -/
def Obligations.StepRunsDecodedInstruction : Prop :=
  ∀ (s : State) a b i, s.runState = .running → mapAddr s.cfg s.pc.toNat = some a →
    mapAddr s.cfg (s.pc.toNat + 1) = some b → decode s.cfg (wordOfBytes (s.byteAt a) (s.byteAt b)) = .instr i →
    step s = exec i s

/-- The byte at the lower address is bits 15..8 of the word, the next one bits 7..0 (R92). -/
def Obligations.FetchIsBigEndian : Prop :=
  ∀ (s : State) a b, mapAddr s.cfg s.pc.toNat = some a → mapAddr s.cfg (s.pc.toNat + 1) = some b →
    ∃ op, s.fetch = .ok op ∧ op.toNat = (s.byteAt a).toNat * 256 + (s.byteAt b).toNat ∧
      op.extractLsb' 8 8 = s.byteAt a ∧ op.extractLsb' 0 8 = s.byteAt b

/-- An unassigned word only advances pc, and 0x0000 is one (R131). -/
def Obligations.UnassignedWordIsNoOp : Prop :=
  (∀ (s : State) op, s.runState = .running → s.fetch = .ok op → decode s.cfg op = .unassigned op →
    step s = .next { s with pc := s.pc + 2 }) ∧
  ∀ c, decode c 0x0000 = .unassigned 0x0000

/-- A step outside Running changes nothing (R204, the spec's decision D13). -/
def Obligations.StepOutsideRunningChangesNothing : Prop :=
  ∀ s : State, s.runState ≠ .running → step s = .next s

/-- An address above 0xFFF does not exist under ADDRESS_POLICY = fault and is reduced modulo 4096 under wrap (R90, the
spec's decision D3). -/
def Obligations.AddressPolicyMapsAddresses : Prop :=
  ∀ (c : Config) a, (c.addressPolicy = .fault → a ≤ 0xFFF → mapAddr c a = some a) ∧
    (c.addressPolicy = .fault → 0xFFF < a → mapAddr c a = none) ∧
    (c.addressPolicy = .wrap → mapAddr c a = some (a % 4096))

/-- A fetch with pc above 0xFFE raises MEM_BOUNDS under ADDRESS_POLICY = fault; any other fetch reads the word, under
wrap at the addresses modulo 4096 (R201, R90; the spec's decisions D3, D19). -/
def Obligations.FetchBeyondMemoryFaults : Prop :=
  ∀ s : State,
    (s.runState = .running → s.cfg.addressPolicy = .fault → 0xFFE < s.pc.toNat →
      step s = .next { s with runState := .halted, faultCause := some .memBounds }) ∧
    (s.cfg.addressPolicy = .fault → s.pc.toNat ≤ 0xFFE →
      s.fetch = .ok (wordOfBytes (s.byteAt s.pc.toNat) (s.byteAt (s.pc.toNat + 1)))) ∧
    (s.cfg.addressPolicy = .wrap →
      s.fetch = .ok (wordOfBytes (s.byteAt (s.pc.toNat % 4096)) (s.byteAt ((s.pc.toNat + 1) % 4096))))

/-- A step always answers a next state: no word and no state makes the machine stop outside it (R133, R203, R400). -/
def Obligations.StepAlwaysAnswersNext : Prop := ∀ s : State, ∃ t, step s = .next t

/-- An instruction either leaves run_state and fault_cause alone, or faults with a cause R401 gives it and then
changes nothing else (R401, R405; the restored state is the spec's decision D11, the causes D12). -/
def Obligations.InstructionCompletesOrFaultsPrecisely : Prop :=
  ∀ i (s t : State), exec i s = .next t →
    (t.runState = s.runState ∧ t.faultCause = s.faultCause) ∨
    ∃ c ∈ causesOf i, t = { s with runState := .halted, faultCause := some c }

/-! ### Invariants -/

/-- Every step keeps the invariant: a legal configuration, memory in canonical form, a W×H framebuffer, and a cause
recorded exactly in Halted (R8, R42, R44, R45, R80). -/
def Obligations.StepKeepsInv : Prop := ∀ s t : State, s.Inv → step s = .next t → t.Inv

/-- Reset meets the invariant, under the default configuration and any legal one (R460, R461). -/
def Obligations.ResetMeetsInv : Prop := State.reset.Inv ∧ ∀ c : Config, c.WellFormed → (State.resetWith c).Inv

/-- Every host operation keeps the invariant, so every interleaving does (R60, R61). -/
def Obligations.HostOperationsKeepInv : Prop :=
  ∀ (s t : State) ops, s.Inv → s.applyAll ops = .next t → t.Inv

/-- Under FONT_WRITE_POLICY fault or ignore no step and no other host operation changes the font region (R82, R84,
R91; the policy is the spec's decision D4). -/
def Obligations.FontStaysImmutable : Prop :=
  ∀ (s t : State) op, s.cfg.fontWritePolicy ≠ .write → s.FontIntact → s.apply op = .next t →
    t.FontIntact ∧ t.cfg = s.cfg

/-- A memory in canonical form is determined by what its addresses read as, so equal memories are equal data (R80). -/
def Obligations.CanonicalMemoryIsExtensional : Prop :=
  ∀ (font : Vector Byte 80) m m', Memory.wf font m → Memory.wf font m' →
    (∀ a, Memory.read font m a = Memory.read font m' a) → m = m'

/-! ### Host operations -/

/-- What reset leaves, in whatever run state it comes (R460, R461; Running after reset is the spec's decision D16). -/
def Obligations.ResetValues : Prop :=
  ∀ s : State, s.apply .reset = .next s.hostReset ∧
    (∀ a, (h : a < 80) → s.hostReset.byteAt a = s.cfg.font[a]) ∧ (∀ a, 80 ≤ a → s.hostReset.byteAt a = 0) ∧
    (∀ x, s.hostReset.reg x = 0) ∧ s.hostReset.i = 0 ∧ s.hostReset.pc = 0 ∧
    (∀ k, (h : k < 12) → s.hostReset.stack[k] = 0) ∧ s.hostReset.sp = 0 ∧ s.hostReset.dt = 0 ∧ s.hostReset.st = 0 ∧
    (∀ k : Key, s.hostReset.keys[k] = false) ∧ (∀ r c, s.hostReset.pixel r c = false) ∧
    s.hostReset.keyWait = .idle ∧ s.hostReset.runState = .running ∧ s.hostReset.faultCause = none ∧
    s.hostReset.cfg = s.cfg ∧ State.reset.hostReset = State.reset

/-- A program longer than 0xE00 bytes is rejected and nothing changes; one of at most 0xE00 is accepted, and one of
exactly 0xE00 fills 0x200..0xFFF (R471). -/
def Obligations.LoadRejectsTooLarge : Prop :=
  ∀ (s : State) (prog : List Byte), (0xE00 < prog.length → s.load prog = (.programTooLarge, s)) ∧
    (prog.length ≤ 0xE00 → (s.load prog).1 = .ok) ∧
    (s.Inv → prog.length = 0xE00 → ∀ k, (h : k < prog.length) → (s.load prog).2.byteAt (0x200 + k) = prog[k])

/-- What load writes and what it leaves (R470; what it leaves is the spec's decision D15). -/
def Obligations.LoadPlacesProgram : Prop :=
  ∀ (s : State) (prog : List Byte), s.Inv → prog.length ≤ 0xE00 →
    ∃ t, s.load prog = (.ok, t) ∧ t = { s with mem := t.mem, pc := 0x200, sp := 0, keyWait := .idle } ∧
      (∀ k, (h : k < prog.length) → t.byteAt (0x200 + k) = prog[k]) ∧
      ∀ a, (a < 0x200 ∨ 0x200 + prog.length ≤ a) → t.byteAt a = s.byteAt a

/-- A tick takes one from each timer that is above 0, and any number of ticks floors at 0 (R420). -/
def Obligations.TicksFloorAtZero : Prop :=
  (∀ s : State, s.apply .tickTimers = .next s.tickTimers ∧
    s.tickTimers = { s with dt := s.tickTimers.dt, st := s.tickTimers.st } ∧
    (0 < s.dt.toNat → s.tickTimers.dt.toNat = s.dt.toNat - 1) ∧ (s.dt = 0 → s.tickTimers.dt = 0) ∧
    (0 < s.st.toNat → s.tickTimers.st.toNat = s.st.toNat - 1) ∧ (s.st = 0 → s.tickTimers.st = 0)) ∧
  ∀ (s : State) n, ((State.tickTimers)^[n] s).dt.toNat = s.dt.toNat - n ∧
    ((State.tickTimers)^[n] s).st.toNat = s.st.toNat - n

/-- set_key writes its key and nothing else, in every run state (R425), and is refused for a number above 0xF (R62,
the spec's decision D21). -/
def Obligations.SetKeyWritesOneKey : Prop :=
  ∀ (s : State) k b, (15 < k → s.setKey k b = .refused .keyNotInInterface) ∧
    (k ≤ 15 → ∃ t, s.setKey k b = .next t ∧ t = { s with keys := t.keys } ∧ t.keys[k]? = some b ∧
      ∀ q, q ≠ k → t.keys[q]? = s.keys[q]?)

/-- The run-state machine of set_paused (R435, the spec's decision D13). -/
def Obligations.SetPausedFollowsTable : Prop :=
  ∀ (s : State) b, s.apply (.setPaused b) = .next { s with runState := (s.setPaused b).runState } ∧
    (s.runState = .halted → (s.setPaused b).runState = .halted) ∧
    (s.runState ≠ .halted → b = true → (s.setPaused b).runState = .paused) ∧
    (s.runState ≠ .halted → b = false → (s.setPaused b).runState = .running)

/-- A parked end stays: every further step leaves the state unchanged (R477, the spec's decision D30; R206). -/
def Obligations.ParkedEndStays : Prop := ∀ s : State, s.ParkedEnd → step s = .next s

/-! ### Whole-machine rules -/

/-- VF changes only by an instruction that writes the flag, or by one whose destination X is VF (R32; that the logic
operations write no flag is the spec's decision D8). -/
def Obligations.FlagChangesOnlyByItsWriters : Prop :=
  ∀ i (s t : State), exec i s = .next t → t.reg 15 ≠ s.reg 15 → writesFlag i = true ∨ destination i = some 15

/-- Only CXNN depends on the random source: any other instruction does the same whatever draw is next (R10, R253; the
count of draws is the model's own field, log 2). -/
def Obligations.OnlyRndReadsTheDraw : Prop :=
  ∀ i (s t : State) n, (∀ x nn, i ≠ .rnd x nn) → exec i s = .next t →
    exec i { s with draws := n } = .next { t with draws := n }

/-! ### Control transfer -/

/-- 00EE (R205). -/
def Obligations.RetPopsReturnAddress : Prop :=
  Selects 0xFFFF 0x00EE (fun _ => .ret) ∧
  (∀ (s : State) n, s.sp.val = n + 1 →
    ∃ t, exec .ret s = .next t ∧ t = { s with pc := t.pc, sp := t.sp } ∧ t.sp.val = n ∧ s.stack[n]? = some t.pc) ∧
  ∀ s : State, s.sp = 0 → Faults .ret s .stackUnderflow

/-- 1NNN (R206). -/
def Obligations.JpSetsPc : Prop :=
  Selects 0xF000 0x1000 (fun op => .jp (fieldNNN op)) ∧
  ∀ (s : State) nnn, ∃ t, exec (.jp nnn) s = .next t ∧ t = { s with pc := t.pc } ∧ t.pc.toNat = nnn.toNat

/-- 2NNN (R207). -/
def Obligations.CallPushesAndJumps : Prop :=
  Selects 0xF000 0x2000 (fun op => .call (fieldNNN op)) ∧
  (∀ (s : State) nnn, s.sp.val < 12 →
    ∃ t, exec (.call nnn) s = .next t ∧ t = { s with pc := t.pc, sp := t.sp, stack := t.stack } ∧
      t.pc.toNat = nnn.toNat ∧ t.sp.val = s.sp.val + 1 ∧ t.stack[s.sp.val]? = some (s.pc + 2) ∧
      ∀ k, k ≠ s.sp.val → t.stack[k]? = s.stack[k]?) ∧
  ∀ (s : State) nnn, s.sp = 12 → Faults (.call nnn) s .stackOverflow

/-- 3XNN and 4XNN (R208, R209, R213). -/
def Obligations.SkipsCompareImmediate : Prop :=
  Selects 0xF000 0x3000 (fun op => .seImm (fieldX op) (fieldNN op)) ∧
  Selects 0xF000 0x4000 (fun op => .sneImm (fieldX op) (fieldNN op)) ∧
  ∀ (s : State) x nn,
    exec (.seImm x nn) s = .next { s with pc := if s.reg x = nn then s.pc + 2 + 2 else s.pc + 2 } ∧
    exec (.sneImm x nn) s = .next { s with pc := if s.reg x = nn then s.pc + 2 else s.pc + 2 + 2 }

/-- 5XY0 and 9XY0 (R210, R211, R213). -/
def Obligations.SkipsCompareRegisters : Prop :=
  Selects59 0x5000 (fun op => .seReg (fieldX op) (fieldY op)) ∧
  Selects59 0x9000 (fun op => .sneReg (fieldX op) (fieldY op)) ∧
  ∀ (s : State) x y,
    exec (.seReg x y) s = .next { s with pc := if s.reg x = s.reg y then s.pc + 2 + 2 else s.pc + 2 } ∧
    exec (.sneReg x y) s = .next { s with pc := if s.reg x = s.reg y then s.pc + 2 else s.pc + 2 + 2 }

/-- BNNN: V0 and NNN are added without reduction to 12 bits (R212; the width is the spec's decision D18). -/
def Obligations.JpV0AddsRegisterZero : Prop :=
  Selects 0xF000 0xB000 (fun op => .jpV0 (fieldNNN op)) ∧
  ∀ (s : State) nnn, ∃ t, exec (.jpV0 nnn) s = .next t ∧ t = { s with pc := t.pc } ∧
    t.pc.toNat = nnn.toNat + (s.reg 0).toNat

/-! ### ALU -/

/-- 6XNN, 7XNN, 8XY0: the register written and no flag (R241, R242, R243). -/
def Obligations.LoadsAndImmediateAdd : Prop :=
  Selects 0xF000 0x6000 (fun op => .ldImm (fieldX op) (fieldNN op)) ∧
  Selects 0xF000 0x7000 (fun op => .addImm (fieldX op) (fieldNN op)) ∧
  Selects 0xF00F 0x8000 (fun op => .ldReg (fieldX op) (fieldY op)) ∧
  ∀ (s : State) x y nn,
    (∃ t, exec (.ldImm x nn) s = .next t ∧ OnlyRegs (· = x) s t ∧ t.reg x = nn) ∧
    (∃ t, exec (.addImm x nn) s = .next t ∧ OnlyRegs (· = x) s t ∧
      (t.reg x).toNat = ((s.reg x).toNat + nn.toNat) % 256) ∧
    (∃ t, exec (.ldReg x y) s = .next t ∧ OnlyRegs (· = x) s t ∧ t.reg x = s.reg y)

/-- 8XY1, 8XY2, 8XY3, bit by bit; VF is no destination unless X is (R244, R245, R246; no flag is the spec's decision
D8). -/
def Obligations.LogicIsBitwise : Prop :=
  Selects 0xF00F 0x8001 (fun op => .or (fieldX op) (fieldY op)) ∧
  Selects 0xF00F 0x8002 (fun op => .and (fieldX op) (fieldY op)) ∧
  Selects 0xF00F 0x8003 (fun op => .xor (fieldX op) (fieldY op)) ∧
  ∀ (s : State) x y,
    (∃ t, exec (.or x y) s = .next t ∧ OnlyRegs (· = x) s t ∧
      ∀ k < 8, (t.reg x).getLsbD k = ((s.reg x).getLsbD k || (s.reg y).getLsbD k)) ∧
    (∃ t, exec (.and x y) s = .next t ∧ OnlyRegs (· = x) s t ∧
      ∀ k < 8, (t.reg x).getLsbD k = ((s.reg x).getLsbD k && (s.reg y).getLsbD k)) ∧
    (∃ t, exec (.xor x y) s = .next t ∧ OnlyRegs (· = x) s t ∧
      ∀ k < 8, (t.reg x).getLsbD k = ((s.reg x).getLsbD k ^^ (s.reg y).getLsbD k))

/-- 8XY4: the sum modulo 256 and the carry; with X = VF the carry is what remains (R247). -/
def Obligations.AddSetsCarry : Prop :=
  Selects 0xF00F 0x8004 (fun op => .addReg (fieldX op) (fieldY op)) ∧
  ∀ (s : State) x y, ∃ t, exec (.addReg x y) s = .next t ∧ OnlyRegs (fun r => r = x ∨ r = 15) s t ∧
    (x ≠ 15 → (t.reg x).toNat = ((s.reg x).toNat + (s.reg y).toNat) % 256) ∧
    t.reg 15 = if (s.reg x).toNat + (s.reg y).toNat > 255 then 1 else 0

/-- 8XY5: the difference modulo 256 and the not-borrow; with X = VF the flag is what remains (R248). -/
def Obligations.SubSetsNotBorrow : Prop :=
  Selects 0xF00F 0x8005 (fun op => .sub (fieldX op) (fieldY op)) ∧
  ∀ (s : State) x y, ∃ t, exec (.sub x y) s = .next t ∧ OnlyRegs (fun r => r = x ∨ r = 15) s t ∧
    (x ≠ 15 → ((t.reg x).toNat : Int) = ((s.reg x).toNat - (s.reg y).toNat : Int) % 256) ∧
    t.reg 15 = if (s.reg x).toNat ≥ (s.reg y).toNat then 1 else 0

/-- 8XY7: VY - VX modulo 256 and its not-borrow (R250; its comparison is the spec's derivation from R248). -/
def Obligations.SubnSetsNotBorrow : Prop :=
  Selects 0xF00F 0x8007 (fun op => .subn (fieldX op) (fieldY op)) ∧
  ∀ (s : State) x y, ∃ t, exec (.subn x y) s = .next t ∧ OnlyRegs (fun r => r = x ∨ r = 15) s t ∧
    (x ≠ 15 → ((t.reg x).toNat : Int) = ((s.reg y).toNat - (s.reg x).toNat : Int) % 256) ∧
    t.reg 15 = if (s.reg y).toNat ≥ (s.reg x).toNat then 1 else 0

/-- 8XY6 and 8XYE: VY, or VX by SHIFT_SOURCE, shifted by one, and the bit shifted out (R249, R251). -/
def Obligations.ShiftsSetTheDroppedBit : Prop :=
  Selects 0xF00F 0x8006 (fun op => .shr (fieldX op) (fieldY op)) ∧
  Selects 0xF00F 0x800E (fun op => .shl (fieldX op) (fieldY op)) ∧
  ∀ (s : State) x y src, src = (if s.cfg.shiftSource = .vy then s.reg y else s.reg x) →
    (∃ t, exec (.shr x y) s = .next t ∧ OnlyRegs (fun r => r = x ∨ r = 15) s t ∧
      (x ≠ 15 → (t.reg x).toNat = src.toNat / 2) ∧ (t.reg 15).toNat = src.toNat % 2) ∧
    (∃ t, exec (.shl x y) s = .next t ∧ OnlyRegs (fun r => r = x ∨ r = 15) s t ∧
      (x ≠ 15 → (t.reg x).toNat = src.toNat * 2 % 256) ∧ (t.reg 15).toNat = src.toNat / 128)

/-- CXNN: the next draw masked by NN, and a new draw next time; the draw is a free value, so this says nothing of
what it is (R253, R10; the spec's decision D17; log 2). -/
def Obligations.RndMasksTheDraw : Prop :=
  Selects 0xF000 0xC000 (fun op => .rnd (fieldX op) (fieldNN op)) ∧
  ∀ (s : State) x nn, ∃ t, exec (.rnd x nn) s = .next t ∧
    t = { s with pc := s.pc + 2, v := t.v, draws := s.draws + 1 } ∧ (∀ r, r ≠ x → t.reg r = s.reg r) ∧
    (∀ k < 8, (t.reg x).getLsbD k = ((Config.rnd s.draws).getLsbD k && nn.getLsbD k)) ∧
    (nn = 0x00 → t.reg x = 0) ∧ (nn = 0xFF → t.reg x = Config.rnd s.draws)

/-! ### Index and memory -/

/-- ANNN (R281). -/
def Obligations.LdISetsIndex : Prop :=
  Selects 0xF000 0xA000 (fun op => .ldI (fieldNNN op)) ∧
  ∀ (s : State) nnn, ∃ t, exec (.ldI nnn) s = .next t ∧ t = { s with pc := s.pc + 2, i := t.i } ∧
    t.i.toNat = nnn.toNat ∧ t.i.toNat ≤ 0xFFF

/-- FX1E and FX29: I + VX modulo 2^16 and VX × 5, neither reduced further, no flag (R282, R283; the spec's decisions
D18, D26). -/
def Obligations.IndexArithmetic : Prop :=
  Selects 0xF0FF 0xF01E (fun op => .addI (fieldX op)) ∧ Selects 0xF0FF 0xF029 (fun op => .ldF (fieldX op)) ∧
  ∀ (s : State) x,
    (∃ t, exec (.addI x) s = .next t ∧ t = { s with pc := s.pc + 2, i := t.i } ∧
      t.i.toNat = (s.i.toNat + (s.reg x).toNat) % 65536) ∧
    (∃ t, exec (.ldF x) s = .next t ∧ t = { s with pc := s.pc + 2, i := t.i } ∧
      t.i.toNat = (s.reg x).toNat * 5)

/-- FX33 where its three addresses exist and may be stored to: the digits (R284, R90, R91; the policies are the spec's
decisions D3, D4). -/
def Obligations.LdBStoresDigits : Prop :=
  Selects 0xF0FF 0xF033 (fun op => .ldB (fieldX op)) ∧
  ∀ (s : State) x f, s.Inv → Mapped s.cfg s.i.toNat 3 f → StoreAllowed s.cfg 3 f →
    ∃ t, exec (.ldB x) s = .next t ∧ t = { s with pc := s.pc + 2, mem := t.mem } ∧
      (∃ h d u : Byte, Stored s t (f 0) h ∧ Stored s t (f 1) d ∧ Stored s t (f 2) u ∧
        h.toNat = (s.reg x).toNat / 100 ∧ d.toNat = (s.reg x).toNat / 10 % 10 ∧ u.toNat = (s.reg x).toNat % 10) ∧
      ∀ a, (∀ k < 3, a ≠ f k) → t.byteAt a = s.byteAt a

/-- FX55 where its addresses exist and may be stored to (R285, R90, R91; the policies are the spec's decisions D3,
D4). -/
def Obligations.StRegsStoresRegisters : Prop :=
  Selects 0xF0FF 0xF055 (fun op => .stRegs (fieldX op)) ∧
  ∀ (s : State) x f, s.Inv → Mapped s.cfg s.i.toNat (x.val + 1) f → StoreAllowed s.cfg (x.val + 1) f →
    ∃ t, exec (.stRegs x) s = .next t ∧ t = { s with pc := s.pc + 2, mem := t.mem, i := t.i } ∧
      (∀ k : Reg, k ≤ x → Stored s t (f k.val) (s.reg k)) ∧
      (∀ a, (∀ k ≤ x.val, a ≠ f k) → t.byteAt a = s.byteAt a) ∧
      t.i.toNat = if s.cfg.ldstIncrementI then (s.i.toNat + x.val + 1) % 65536 else s.i.toNat

/-- FX65 where its addresses exist (R286, R90; the policy is the spec's decision D3). -/
def Obligations.LdRegsLoadsRegisters : Prop :=
  Selects 0xF0FF 0xF065 (fun op => .ldRegs (fieldX op)) ∧
  ∀ (s : State) x f, Mapped s.cfg s.i.toNat (x.val + 1) f →
    ∃ t, exec (.ldRegs x) s = .next t ∧ t = { s with pc := s.pc + 2, v := t.v, i := t.i } ∧
      (∀ k : Reg, k ≤ x → t.reg k = s.byteAt (f k.val)) ∧ (∀ k : Reg, x < k → t.reg k = s.reg k) ∧
      t.i.toNat = if s.cfg.ldstIncrementI then (s.i.toNat + x.val + 1) % 65536 else s.i.toNat

/-- The faults of FX33 and FX55: MEM_BOUNDS when some address does not exist, FONT_WRITE when all exist and some lies
in the font under FONT_WRITE_POLICY = fault (R90, R91, R406; the spec's decisions D3, D4, D11). -/
def Obligations.StoreFaults : Prop :=
  ∀ (s : State) x,
    ((∃ k < 3, mapAddr s.cfg (s.i.toNat + k) = none) → Faults (.ldB x) s .memBounds) ∧
    ((∃ k ≤ x.val, mapAddr s.cfg (s.i.toNat + k) = none) → Faults (.stRegs x) s .memBounds) ∧
    ∀ f, s.cfg.fontWritePolicy = .fault →
      (Mapped s.cfg s.i.toNat 3 f → (∃ k < 3, f k < fontEnd) → Faults (.ldB x) s .fontWrite) ∧
      (Mapped s.cfg s.i.toNat (x.val + 1) f → (∃ k ≤ x.val, f k < fontEnd) → Faults (.stRegs x) s .fontWrite)

/-- The faults of FX65 and DXYN: MEM_BOUNDS when some address they read does not exist (R286, R322, R90; the spec's
decision D3). -/
def Obligations.ReadFaults : Prop :=
  ∀ (s : State) x y n,
    ((∃ k ≤ x.val, mapAddr s.cfg (s.i.toNat + k) = none) → Faults (.ldRegs x) s .memBounds) ∧
    ((∃ k < n.toNat, mapAddr s.cfg (s.i.toNat + k) = none) → Faults (.drw x y n) s .memBounds)

/-- A register dump followed by a load from the same I gives V0..VX back, whatever the registers were meanwhile (R285,
R286), where the dump did not fault and no byte of it was ignored. -/
def Obligations.DumpThenLoadRoundTrips : Prop :=
  ∀ (s t u : State) x w f, s.Inv → Mapped s.cfg s.i.toNat (x.val + 1) f → StoreAllowed s.cfg (x.val + 1) f →
    (s.cfg.fontWritePolicy = .ignore → ∀ k ≤ x.val, fontEnd ≤ f k) →
    exec (.stRegs x) s = .next t → exec (.ldRegs x) { t with i := s.i, v := w } = .next u →
    ∀ k : Reg, k ≤ x → u.reg k = s.reg k

/-! ### Display -/

/-- 00E0 (R321). -/
def Obligations.ClsClearsEveryPixel : Prop :=
  Selects 0xFFFF 0x00E0 (fun _ => .cls) ∧
  ∀ s : State, ∃ t, exec .cls s = .next t ∧ t = { s with pc := s.pc + 2, fb := t.fb } ∧ t.GridWf ∧
    ∀ r c, t.pixel r c = false

/-- DXYN where its sprite bytes exist: each pixel is inverted once for every set bit that falls on it, rows and columns
wrapping at every pixel, and only VF changes of the registers (R322, R324, R326). -/
def Obligations.DrawXorsWithWraparound : Prop :=
  Selects 0xF000 0xD000 (fun op => .drw (fieldX op) (fieldY op) (fieldN op)) ∧
  ∀ (s : State) x y (n : Nibble) f, s.Inv → Mapped s.cfg s.i.toNat n.toNat f →
    ∃ t, exec (.drw x y n) s = .next t ∧ t = { s with pc := s.pc + 2, fb := t.fb, v := t.v } ∧ t.GridWf ∧
      (∀ r : Reg, r ≠ 15 → t.reg r = s.reg r) ∧
      ∀ r < s.cfg.height, ∀ c < s.cfg.width,
        t.pixel r c = (s.pixel r c ^^ decide (hits s x y n.toNat f (fun _ _ => true) r c % 2 = 1))

/-- DXYN ends with VF = 1 exactly when some set bit met a lit pixel at the moment it was processed (R323, R326); on a
screen where no draw visits a pixel twice, exactly when some set bit falls on a pixel lit before the draw. -/
def Obligations.DrawReportsCollision : Prop :=
  ∀ (s : State) x y (n : Nibble) f, s.Inv → Mapped s.cfg s.i.toNat n.toNat f →
    (∃ t, exec (.drw x y n) s = .next t ∧
      (Collides s x y n.toNat f → t.reg 15 = 1) ∧ (¬ Collides s x y n.toNat f → t.reg 15 = 0)) ∧
    (8 ≤ s.cfg.width → n.toNat ≤ s.cfg.height →
      (Collides s x y n.toNat f ↔ ∃ k < n.toNat, ∃ j < 8, spriteBit s f k j = true ∧
        s.pixel (drawRow s y k) (drawCol s x j) = true))

/-- Drawing the same sprite twice at the same place gives the framebuffer back (R322's example, for every state). -/
def Obligations.DrawTwiceRestores : Prop :=
  ∀ (s t u : State) x y n, x ≠ 15 → y ≠ 15 → s.Inv → exec (.drw x y n) s = .next t → exec (.drw x y n) t = .next u →
    u.fb = s.fb

/-- DXY0 draws nothing, reads no memory (so it cannot fault) and leaves VF = 0 (R325). -/
def Obligations.DrawOfNoRows : Prop :=
  ∀ (s : State) x y, ∃ t, exec (.drw x y 0) s = .next t ∧ OnlyRegs (· = 15) s t ∧ t.reg 15 = 0

/-! ### Keys and timers -/

/-- EX9E and EXA1: the key numbered by VX, by its low nibble under KEY_INDEX_POLICY = mask, and KEY_RANGE above 0xF
under fault (R360, R361, R366; the policy is the spec's decision D10). -/
def Obligations.KeySkips : Prop :=
  Selects 0xF0FF 0xE09E (fun op => .skp (fieldX op)) ∧ Selects 0xF0FF 0xE0A1 (fun op => .sknp (fieldX op)) ∧
  ∀ (s : State) x (k : Key),
    (((s.reg x).toNat = k.val ∨ (s.cfg.keyIndexPolicy = .mask ∧ (s.reg x).toNat % 16 = k.val)) →
      exec (.skp x) s = .next { s with pc := if s.keys[k] then s.pc + 2 + 2 else s.pc + 2 } ∧
      exec (.sknp x) s = .next { s with pc := if s.keys[k] then s.pc + 2 else s.pc + 2 + 2 }) ∧
    (s.cfg.keyIndexPolicy = .fault → 0xF < (s.reg x).toNat →
      Faults (.skp x) s .keyRange ∧ Faults (.sknp x) s .keyRange)

/-- FX0A: it blocks until a press is seen, the lowest key of several, then until that key's release, whatever other
keys do, and then writes the key number; it writes no key (R363; the spec's decision D9). -/
def Obligations.KeyWaitAutomaton : Prop :=
  Selects 0xF0FF 0xF00A (fun op => .ldK (fieldX op)) ∧
  ∀ (s : State) x (k : Key),
    (s.keyWait = .idle → (∀ q : Key, s.keys[q] = false) → exec (.ldK x) s = .next s) ∧
    (s.keyWait = .idle → s.keys[k] = true → (∀ q : Key, q < k → s.keys[q] = false) →
      exec (.ldK x) s = .next { s with keyWait := .awaitingRelease k }) ∧
    (s.keyWait = .awaitingRelease k → s.keys[k] = true → exec (.ldK x) s = .next s) ∧
    (s.keyWait = .awaitingRelease k → s.keys[k] = false →
      ∃ t, exec (.ldK x) s = .next t ∧ t = { s with pc := s.pc + 2, v := t.v, keyWait := .idle } ∧
        (t.reg x).toNat = k.val ∧ ∀ r, r ≠ x → t.reg r = s.reg r)

/-- FX07 and FX15; no other instruction changes DT (R362, R364). -/
def Obligations.DelayTimerReadAndWritten : Prop :=
  Selects 0xF0FF 0xF007 (fun op => .ldVxDt (fieldX op)) ∧ Selects 0xF0FF 0xF015 (fun op => .ldDt (fieldX op)) ∧
  ∀ (s : State) x,
    (∃ t, exec (.ldVxDt x) s = .next t ∧ OnlyRegs (· = x) s t ∧ t.reg x = s.dt) ∧
    exec (.ldDt x) s = .next { s with pc := s.pc + 2, dt := s.reg x } ∧
    ∀ i t, (∀ x, i ≠ .ldDt x) → exec i s = .next t → t.dt = s.dt

/-- FX18 and the sound_active output; no instruction reads ST back, so every other one does the same whatever ST is
(R365, R422). -/
def Obligations.SoundTimerWritten : Prop :=
  Selects 0xF0FF 0xF018 (fun op => .ldSt (fieldX op)) ∧
  (∀ (s : State) x, exec (.ldSt x) s = .next { s with pc := s.pc + 2, st := s.reg x }) ∧
  (∀ s : State, s.outputs.soundActive = true ↔ s.st ≠ 0) ∧
  ∀ i (s t : State) b, (∀ x, i ≠ .ldSt x) → exec i s = .next t → exec i { s with st := b } = .next { t with st := b }

/-! ### Frames -/

/-- What 6XNN, 7XNN, 8XY0 to 8XYE, CXNN and FX07 leave unchanged: all but pc, the destination, and VF where the
instruction writes the flag (R32, R240 and their rules). -/
def Obligations.AluFrame : Prop :=
  ∀ i (s t : State) w, touchedByAlu i = some w → exec i s = .next t → Frame w s t

/-- What 00EE, 1NNN, 2NNN, 3XNN, 4XNN, 5XY0, 9XY0, BNNN, EX9E, EXA1, FX0A, FX15 and FX18 leave unchanged. -/
def Obligations.ControlKeyTimerFrame : Prop :=
  ∀ i (s t : State) w, touchedByControl i = some w → exec i s = .next t → Frame w s t

/-- What ANNN, FX1E, FX29, FX33, FX55, FX65, 00E0 and DXYN leave unchanged: every byte of memory but those of FX33 and
FX55 at the indexes of I + k, and all else their rules do not name. -/
def Obligations.MemoryDisplayFrame : Prop :=
  ∀ i (s t : State) w, touchedByMemory s i = some w → exec i s = .next t → Frame w s t
end

