-- ==== Sys2Proof/Laws/Decode.lean ====
section
/-! SUPPORT. The laws of the opcode table: the fields of a packed word, the rows that match it, and that no word
matches two rows. -/

namespace Sys2Proof

/-! ### Fields of packed words -/

@[simp] theorem fieldNNN_packAddr (top : Nibble) (nnn : Addr12) : fieldNNN (packAddr top nnn) = nnn := by
  unfold fieldNNN packAddr placeTop
  ext i hi; interval_cases i <;> simp

@[simp] theorem fieldX_packXNN (top : Nibble) (x : Reg) (nn : Byte) : fieldX (packXNN top x nn) = x := by
  have : (packXNN top x nn).extractLsb' 8 4 = BitVec.ofFin (w := 4) x := by
    unfold packXNN placeTop placeX
    generalize BitVec.ofFin (w := 4) x = p
    ext i hi; interval_cases i <;> simp
  simp [fieldX, this]

@[simp] theorem fieldNN_packXNN (top : Nibble) (x : Reg) (nn : Byte) : fieldNN (packXNN top x nn) = nn := by
  unfold fieldNN packXNN placeTop placeX
  ext i hi; interval_cases i <;> simp

@[simp] theorem fieldX_packXY (top : Nibble) (x y : Reg) (low : Nibble) : fieldX (packXY top x y low) = x := by
  have : (packXY top x y low).extractLsb' 8 4 = BitVec.ofFin (w := 4) x := by
    unfold packXY placeTop placeX placeY
    generalize BitVec.ofFin (w := 4) x = p
    ext i hi; interval_cases i <;> simp
  simp [fieldX, this]

@[simp] theorem fieldY_packXY (top : Nibble) (x y : Reg) (low : Nibble) : fieldY (packXY top x y low) = y := by
  have : (packXY top x y low).extractLsb' 4 4 = BitVec.ofFin (w := 4) y := by
    unfold packXY placeTop placeX placeY
    generalize BitVec.ofFin (w := 4) y = q
    ext i hi; interval_cases i <;> simp
  simp [fieldY, this]

@[simp] theorem fieldN_packXY (top : Nibble) (x y : Reg) (low : Nibble) : fieldN (packXY top x y low) = low := by
  unfold fieldN packXY placeTop placeX placeY
  ext i hi; interval_cases i <;> simp

/-! ### The fixed bits of packed words -/

theorem packAddr_top (top : Nibble) (nnn : Addr12) : packAddr top nnn &&& 0xF000 = placeTop top := by
  unfold packAddr placeTop
  ext i hi; interval_cases i <;> simp

theorem packXNN_top (top : Nibble) (x : Reg) (nn : Byte) : packXNN top x nn &&& 0xF000 = placeTop top := by
  unfold packXNN placeTop placeX
  ext i hi; interval_cases i <;> simp

theorem packXNN_topLow (top : Nibble) (x : Reg) (nn : Byte) :
    packXNN top x nn &&& 0xF0FF = placeTop top ||| nn.setWidth 16 := by
  unfold packXNN placeTop placeX
  ext i hi; interval_cases i <;> simp

theorem packXY_top (top : Nibble) (x y : Reg) (low : Nibble) : packXY top x y low &&& 0xF000 = placeTop top := by
  unfold packXY placeTop placeX placeY
  ext i hi; interval_cases i <;> simp

theorem packXY_topLow (top : Nibble) (x y : Reg) (low : Nibble) :
    packXY top x y low &&& 0xF00F = placeTop top ||| low.setWidth 16 := by
  unfold packXY placeTop placeX placeY
  ext i hi; interval_cases i <;> simp

/-- The top nibble of a word, from its bits under the mask of a row. -/
theorem top_of_mask {op : Word} {top : Nibble} (h : op &&& 0xF000 = placeTop top) : op.extractLsb' 12 4 = top := by
  have : op.extractLsb' 12 4 = (op &&& 0xF000).extractLsb' 12 4 := by
    ext i hi; interval_cases i <;> simp
  rw [this, h]
  unfold placeTop
  ext i hi; interval_cases i <;> simp

theorem top_low_of_mask {op : Word} {top low : Nibble} (h : op &&& 0xF00F = placeTop top ||| low.setWidth 16) :
    op.extractLsb' 12 4 = top ∧ fieldN op = low := by
  have h1 : op.extractLsb' 12 4 = (op &&& 0xF00F).extractLsb' 12 4 := by
    ext i hi; interval_cases i <;> simp
  have h2 : fieldN op = (op &&& 0xF00F).extractLsb' 0 4 := by
    unfold fieldN; ext i hi; interval_cases i <;> simp
  rw [h1, h2, h]
  unfold placeTop
  constructor <;> ext i hi <;> interval_cases i <;> simp

theorem top_byte_of_mask {op : Word} {top : Nibble} {low : Byte}
    (h : op &&& 0xF0FF = placeTop top ||| low.setWidth 16) : op.extractLsb' 12 4 = top ∧ fieldNN op = low := by
  have h1 : op.extractLsb' 12 4 = (op &&& 0xF0FF).extractLsb' 12 4 := by
    ext i hi; interval_cases i <;> simp
  have h2 : fieldNN op = (op &&& 0xF0FF).extractLsb' 0 8 := by
    unfold fieldNN; ext i hi; interval_cases i <;> simp
  rw [h1, h2, h]
  unfold placeTop
  constructor <;> ext i hi <;> interval_cases i <;> simp

/-- The bits of a word under the masks of the rows, from its top nibble and its low nibble or byte. -/
theorem mask_top (op : Word) : op &&& 0xF000 = placeTop (op.extractLsb' 12 4) := by
  unfold placeTop; ext i hi; interval_cases i <;> simp

theorem mask_top_low (op : Word) : op &&& 0xF00F = placeTop (op.extractLsb' 12 4) ||| (fieldN op).setWidth 16 := by
  unfold placeTop fieldN; ext i hi; interval_cases i <;> simp

theorem mask_top_byte (op : Word) : op &&& 0xF0FF = placeTop (op.extractLsb' 12 4) ||| (fieldNN op).setWidth 16 := by
  unfold placeTop fieldNN; ext i hi; interval_cases i <;> simp

theorem mask_all (op : Word) : op &&& 0xFFFF = op := BitVec.and_allOnes

/-- A word is the packing of its fields, by format (R122, R123). -/
theorem packAddr_fields (op : Word) : packAddr (op.extractLsb' 12 4) (fieldNNN op) = op := by
  unfold packAddr placeTop fieldNNN
  ext i hi; interval_cases i <;> simp

theorem packXNN_fields (op : Word) : packXNN (op.extractLsb' 12 4) (fieldX op) (fieldNN op) = op := by
  unfold packXNN placeTop placeX fieldNN fieldX
  simp only [BitVec.ofFin_toFin]
  ext i hi; interval_cases i <;> simp

theorem packXY_fields (op : Word) : packXY (op.extractLsb' 12 4) (fieldX op) (fieldY op) (fieldN op) = op := by
  unfold packXY placeTop placeX placeY fieldN fieldX fieldY
  simp only [BitVec.ofFin_toFin]
  ext i hi; interval_cases i <;> simp

/-- The two bytes of a word, combined, are the word (R92). -/
theorem wordOfBytes_bytes (op : Word) : wordOfBytes (op.extractLsb' 8 8) (op.extractLsb' 0 8) = op := by
  unfold wordOfBytes
  ext i hi; interval_cases i <;> simp

/-! ### One row for a word -/

/-- Two rows no word can match both: their patterns differ under the bits both masks keep. -/
def OpcodeRow.disjoint (r q : OpcodeRow) : Bool := r.pat &&& q.mask != q.pat &&& r.mask

/-- The rows are pairwise disjoint (R125: at most one pattern matches any word). -/
theorem opcodeRows_disjoint (c : Config) :
    (opcodeRows c).Pairwise (fun r q => r.disjoint q = true) := by
  have two : ∀ b : Bool, mask59 c = (if b then 0xF00F else 0xF000) →
      (opcodeRows c).Pairwise (fun r q => r.disjoint q = true) := by
    intro b hb
    unfold opcodeRows rowsXY
    rw [hb]
    cases b <;> decide
  exact two c.decode59Strict rfl

theorem OpcodeRow.not_both {r q : OpcodeRow} (hd : r.disjoint q = true) {op : Word} (hr : r.matchesWord op = true)
    (hq : q.matchesWord op = true) : False := by
  simp only [OpcodeRow.matchesWord, beq_iff_eq] at hr hq
  simp only [OpcodeRow.disjoint, bne_iff_ne, ne_eq, ← hr, ← hq] at hd
  exact hd (by rw [BitVec.and_assoc, BitVec.and_assoc, BitVec.and_comm r.mask])

/-- A row that matches is the row the search finds, where no two rows overlap. -/
theorem find_row_of_mem {rows : List OpcodeRow} (hd : rows.Pairwise (fun r q => r.disjoint q = true)) {r : OpcodeRow}
    (hr : r ∈ rows) {op : Word} (hm : r.matchesWord op = true) :
    rows.find? (fun q => q.matchesWord op) = some r := by
  induction rows with
  | nil => simp at hr
  | cons q rows ih =>
    have hc := List.pairwise_cons.mp hd
    rcases List.mem_cons.mp hr with rfl | hr
    · simp [hm]
    · have hq : q.matchesWord op = false := by
        by_contra h
        exact OpcodeRow.not_both (hc.1 r hr) (by simpa using h) hm
      simpa [hq] using ih hc.2 hr

/-- A word that matches a row of the table decodes to what the row builds. -/
theorem decode_eq_of_row {c : Config} {r : OpcodeRow} (hr : r ∈ opcodeRows c) {op : Word}
    (hm : r.matchesWord op = true) : decode c op = .instr (r.build op) := by
  simp [decode, find_row_of_mem (opcodeRows_disjoint c) hr hm]

/-- A word decodes to an instruction only through a row that matches it. -/
theorem row_of_decode_eq {c : Config} {op : Word} {i : Instr} (h : decode c op = .instr i) :
    ∃ r ∈ opcodeRows c, r.matchesWord op = true ∧ r.build op = i := by
  unfold decode at h
  split at h
  · next r hf =>
    exact ⟨r, List.mem_of_find?_eq_some hf, by simpa using List.find?_some hf, by simpa using h⟩
  · simp at h

/-- A word is unassigned exactly when no row matches it (R131). -/
theorem decode_eq_unassigned_iff (c : Config) (op : Word) :
    decode c op = .unassigned op ↔ ∀ r ∈ opcodeRows c, r.matchesWord op = false := by
  unfold decode
  split
  · next r hf =>
    simp only [reduceCtorEq, false_iff, not_forall, Bool.not_eq_false]
    exact ⟨r, List.mem_of_find?_eq_some hf, by simpa using List.find?_some hf⟩
  · next hf => simpa using hf

end Sys2Proof
end

