-- ==== Sys2Proof/Laws/Memory.lean ====
section
/-! SUPPORT. The laws of memory: what a read after a write gives, and that every write keeps the canonical form. -/

namespace Sys2Proof.Machine

/-- The addresses of a memory rise strictly. -/
abbrev Memory.sorted (m : List Host.Cell) : Prop := m.Pairwise (fun x y => x.1 < y.1)

@[simp] theorem Memory.read_nil (font : Vector Byte 80) (a : Nat) : Memory.read font [] a = Memory.unlisted font a := rfl

@[simp] theorem Memory.read_cons_self (font : Vector Byte 80) (k : Nat) (b : Byte) (m : List Host.Cell) :
    Memory.read font ((k, b) :: m) k = b := by simp [Memory.read]

theorem Memory.read_cons_of_ne (font : Vector Byte 80) {k a : Nat} (b : Byte) (m : List Host.Cell) (h : k ≠ a) :
    Memory.read font ((k, b) :: m) a = Memory.read font m a := by simp [Memory.read, h]

/-- An address with no cell reads as the reset contents. -/
theorem Memory.read_of_not_mem (font : Vector Byte 80) (m : List Host.Cell) (a : Nat) (h : ∀ x ∈ m, x.1 ≠ a) :
    Memory.read font m a = Memory.unlisted font a := by
  induction m with
  | nil => rfl
  | cons x m ih =>
    obtain ⟨k, b⟩ := x
    rw [Memory.read_cons_of_ne font b m (h (k, b) (by simp))]
    exact ih fun x hx => h x (by simp [hx])

theorem Memory.read_consCell_of_ne (font : Vector Byte 80) {a k : Nat} (b : Byte) (m : List Host.Cell) (h : k ≠ a) :
    Memory.read font (Memory.consCell font k b m) a = Memory.read font m a := by
  unfold Memory.consCell
  split
  · rfl
  · exact Memory.read_cons_of_ne font b m h

theorem Memory.read_consCell_self (font : Vector Byte 80) {a : Nat} (b : Byte) (m : List Host.Cell)
    (h : ∀ x ∈ m, a < x.1) : Memory.read font (Memory.consCell font a b m) a = b := by
  unfold Memory.consCell
  split
  · next e => rw [Memory.read_of_not_mem font m a fun x hx => (h x hx).ne']; exact e.symm
  · simp

/-- A write leaves every other address alone. -/
theorem Memory.read_write_of_ne (font : Vector Byte 80) (m : List Host.Cell) {a k : Nat} (b : Byte) (h : k ≠ a) :
    Memory.read font (Memory.write font m k b) a = Memory.read font m a := by
  induction m with
  | nil => exact Memory.read_consCell_of_ne font b [] h
  | cons x m ih =>
    obtain ⟨q, d⟩ := x
    simp only [Memory.write]
    split
    · exact Memory.read_consCell_of_ne font b _ h
    · split
      · next e => subst e; rw [Memory.read_consCell_of_ne font b m h, Memory.read_cons_of_ne font d m h]
      · by_cases hq : q = a
        · subst hq; simp
        · rw [Memory.read_cons_of_ne font d _ hq, Memory.read_cons_of_ne font d _ hq, ih]

/-- A read after a write to the same address gives the byte written. -/
theorem Memory.read_write_self (font : Vector Byte 80) (m : List Host.Cell) (a : Nat) (b : Byte)
    (h : Memory.sorted m) : Memory.read font (Memory.write font m a b) a = b := by
  induction m with
  | nil => exact Memory.read_consCell_self font b [] (by simp)
  | cons x m ih =>
    obtain ⟨q, d⟩ := x
    have hc := List.pairwise_cons.mp h
    simp only [Memory.write]
    split
    · next hlt =>
      refine Memory.read_consCell_self font b _ fun y hy => ?_
      rcases List.mem_cons.mp hy with rfl | hy
      · exact hlt
      · exact hlt.trans (hc.1 y hy)
    · split
      · next e => subst e; exact Memory.read_consCell_self font b m hc.1
      · next h2 =>
        rw [Memory.read_cons_of_ne font d _ (Ne.symm h2)]
        exact ih hc.2

/-- Every cell of a written memory is an old cell or the one written, and that one differs from the reset contents. -/
theorem Memory.mem_write (font : Vector Byte 80) {m : List Host.Cell} {a : Nat} {b : Byte} {x : Host.Cell}
    (hx : x ∈ Memory.write font m a b) : x ∈ m ∨ (x = (a, b) ∧ b ≠ Memory.unlisted font a) := by
  have cell : ∀ l, x ∈ Memory.consCell font a b l → x ∈ l ∨ (x = (a, b) ∧ b ≠ Memory.unlisted font a) := by
    intro l hl
    unfold Memory.consCell at hl
    split at hl
    · exact .inl hl
    · next e => rcases List.mem_cons.mp hl with rfl | hl
                · exact .inr ⟨rfl, e⟩
                · exact .inl hl
  induction m with
  | nil => exact cell [] hx
  | cons y m ih =>
    obtain ⟨q, d⟩ := y
    simp only [Memory.write] at hx
    split at hx
    · exact cell _ hx
    · split at hx
      · exact (cell _ hx).imp_left (List.mem_cons_of_mem _)
      · rcases List.mem_cons.mp hx with rfl | hx
        · exact .inl (by simp)
        · exact (ih hx).imp_left (List.mem_cons_of_mem _)

theorem Memory.sorted_consCell (font : Vector Byte 80) {m : List Host.Cell} {a : Nat} (b : Byte)
    (h : Memory.sorted m) (ha : ∀ x ∈ m, a < x.1) : Memory.sorted (Memory.consCell font a b m) := by
  unfold Memory.consCell
  split
  · exact h
  · exact List.pairwise_cons.mpr ⟨ha, h⟩

theorem Memory.sorted_write (font : Vector Byte 80) {m : List Host.Cell} (a : Nat) (b : Byte)
    (h : Memory.sorted m) : Memory.sorted (Memory.write font m a b) := by
  induction m with
  | nil => exact Memory.sorted_consCell font b h (by simp)
  | cons y m ih =>
    obtain ⟨q, d⟩ := y
    have hc := List.pairwise_cons.mp h
    simp only [Memory.write]
    split
    · next hlt =>
      refine Memory.sorted_consCell font b h fun y hy => ?_
      rcases List.mem_cons.mp hy with rfl | hy
      · exact hlt
      · exact hlt.trans (hc.1 y hy)
    · split
      · next e => subst e; exact Memory.sorted_consCell font b hc.2 hc.1
      · next h1 h2 =>
        refine List.pairwise_cons.mpr ⟨fun y hy => ?_, ih hc.2⟩
        rcases Memory.mem_write font hy with hy | ⟨rfl, -⟩
        · exact hc.1 y hy
        · show q < a
          omega

/-- A write to an address that exists keeps the canonical form. -/
theorem Memory.wf_write (font : Vector Byte 80) {m : List Host.Cell} {a : Nat} (b : Byte) (h : Memory.wf font m)
    (ha : a < memSize) : Memory.wf font (Memory.write font m a b) := by
  refine ⟨Memory.sorted_write font a b h.1, fun x hx => ?_⟩
  rcases Memory.mem_write font hx with hx | ⟨rfl, hb⟩
  · exact h.2 x hx
  · exact ⟨ha, hb⟩

/-- Writes to addresses that exist keep the canonical form. -/
theorem Memory.wf_writeAll (font : Vector Byte 80) {m : List Host.Cell} (ws : List (Nat × Byte)) (h : Memory.wf font m)
    (hw : ∀ w ∈ ws, w.1 < memSize) : Memory.wf font (Memory.writeAll font m ws) := by
  induction ws generalizing m with
  | nil => exact h
  | cons w ws ih =>
    exact ih (Memory.wf_write font w.2 h (hw w (by simp))) fun v hv => hw v (by simp [hv])

/-- Several writes leave every address that is none of theirs alone. -/
theorem Memory.read_writeAll_of_not_mem (font : Vector Byte 80) (m : List Host.Cell) (ws : List (Nat × Byte)) (a : Nat)
    (h : ∀ w ∈ ws, w.1 ≠ a) : Memory.read font (Memory.writeAll font m ws) a = Memory.read font m a := by
  induction ws generalizing m with
  | nil => rfl
  | cons w ws ih =>
    simp only [Memory.writeAll]
    rw [ih _ fun v hv => h v (by simp [hv]), Memory.read_write_of_ne font m w.2 (h w (by simp))]

/-- Where the addresses of several writes differ, each one reads back as written. -/
theorem Memory.read_writeAll_of_mem (font : Vector Byte 80) {m : List Host.Cell} {ws : List (Nat × Byte)} {a : Nat}
    {b : Byte} (hs : Memory.sorted m) (hd : (ws.map Prod.fst).Nodup) (h : (a, b) ∈ ws) :
    Memory.read font (Memory.writeAll font m ws) a = b := by
  induction ws generalizing m with
  | nil => simp at h
  | cons w ws ih =>
    simp only [List.map_cons, List.nodup_cons, List.mem_map, not_exists, not_and] at hd
    simp only [Memory.writeAll]
    rcases List.mem_cons.mp h with rfl | h
    · rw [Memory.read_writeAll_of_not_mem font _ ws a fun v hv => hd.1 v hv]
      exact Memory.read_write_self font m a b hs
    · exact ih (Memory.sorted_write font _ _ hs) hd.2 h

/-- The empty memory, that of reset, is in canonical form. -/
theorem Memory.wf_nil (font : Vector Byte 80) : Memory.wf font [] := by simp [Memory.wf]

end Sys2Proof.Machine
end

