-- ==== Sys2Proof/Laws/State.lean ====
section
/-! SUPPORT. What each named update of the state leaves of each field, and what it makes of the fields it writes. -/

namespace Sys2Proof.Machine

/-! ### advance -/

@[simp] theorem State.advance_mem (s : State) : (s.advance).mem = s.mem := rfl
@[simp] theorem State.advance_v (s : State) : (s.advance).v = s.v := rfl
@[simp] theorem State.advance_i (s : State) : (s.advance).i = s.i := rfl
@[simp] theorem State.advance_stack (s : State) : (s.advance).stack = s.stack := rfl
@[simp] theorem State.advance_sp (s : State) : (s.advance).sp = s.sp := rfl
@[simp] theorem State.advance_dt (s : State) : (s.advance).dt = s.dt := rfl
@[simp] theorem State.advance_st (s : State) : (s.advance).st = s.st := rfl
@[simp] theorem State.advance_keys (s : State) : (s.advance).keys = s.keys := rfl
@[simp] theorem State.advance_fb (s : State) : (s.advance).fb = s.fb := rfl
@[simp] theorem State.advance_keyWait (s : State) : (s.advance).keyWait = s.keyWait := rfl
@[simp] theorem State.advance_runState (s : State) : (s.advance).runState = s.runState := rfl
@[simp] theorem State.advance_faultCause (s : State) : (s.advance).faultCause = s.faultCause := rfl
@[simp] theorem State.advance_cfg (s : State) : (s.advance).cfg = s.cfg := rfl
@[simp] theorem State.advance_draws (s : State) : (s.advance).draws = s.draws := rfl
@[simp] theorem State.advance_pc (s : State) : (s.advance).pc = s.pc + 2 := rfl

/-! ### setReg -/

@[simp] theorem State.setReg_mem (s : State) (x : Reg) (b : Byte) : (s.setReg x b).mem = s.mem := rfl
@[simp] theorem State.setReg_i (s : State) (x : Reg) (b : Byte) : (s.setReg x b).i = s.i := rfl
@[simp] theorem State.setReg_pc (s : State) (x : Reg) (b : Byte) : (s.setReg x b).pc = s.pc := rfl
@[simp] theorem State.setReg_stack (s : State) (x : Reg) (b : Byte) : (s.setReg x b).stack = s.stack := rfl
@[simp] theorem State.setReg_sp (s : State) (x : Reg) (b : Byte) : (s.setReg x b).sp = s.sp := rfl
@[simp] theorem State.setReg_dt (s : State) (x : Reg) (b : Byte) : (s.setReg x b).dt = s.dt := rfl
@[simp] theorem State.setReg_st (s : State) (x : Reg) (b : Byte) : (s.setReg x b).st = s.st := rfl
@[simp] theorem State.setReg_keys (s : State) (x : Reg) (b : Byte) : (s.setReg x b).keys = s.keys := rfl
@[simp] theorem State.setReg_fb (s : State) (x : Reg) (b : Byte) : (s.setReg x b).fb = s.fb := rfl
@[simp] theorem State.setReg_keyWait (s : State) (x : Reg) (b : Byte) : (s.setReg x b).keyWait = s.keyWait := rfl
@[simp] theorem State.setReg_runState (s : State) (x : Reg) (b : Byte) : (s.setReg x b).runState = s.runState := rfl
@[simp] theorem State.setReg_faultCause (s : State) (x : Reg) (b : Byte) : (s.setReg x b).faultCause = s.faultCause := rfl
@[simp] theorem State.setReg_cfg (s : State) (x : Reg) (b : Byte) : (s.setReg x b).cfg = s.cfg := rfl
@[simp] theorem State.setReg_draws (s : State) (x : Reg) (b : Byte) : (s.setReg x b).draws = s.draws := rfl
@[simp] theorem State.setReg_v (s : State) (x : Reg) (b : Byte) : (s.setReg x b).v = s.v.set x b := rfl

/-! ### setRegFlag -/

@[simp] theorem State.setRegFlag_mem (s : State) (x : Reg) (b f : Byte) : (s.setRegFlag x b f).mem = s.mem := rfl
@[simp] theorem State.setRegFlag_i (s : State) (x : Reg) (b f : Byte) : (s.setRegFlag x b f).i = s.i := rfl
@[simp] theorem State.setRegFlag_pc (s : State) (x : Reg) (b f : Byte) : (s.setRegFlag x b f).pc = s.pc := rfl
@[simp] theorem State.setRegFlag_stack (s : State) (x : Reg) (b f : Byte) : (s.setRegFlag x b f).stack = s.stack := rfl
@[simp] theorem State.setRegFlag_sp (s : State) (x : Reg) (b f : Byte) : (s.setRegFlag x b f).sp = s.sp := rfl
@[simp] theorem State.setRegFlag_dt (s : State) (x : Reg) (b f : Byte) : (s.setRegFlag x b f).dt = s.dt := rfl
@[simp] theorem State.setRegFlag_st (s : State) (x : Reg) (b f : Byte) : (s.setRegFlag x b f).st = s.st := rfl
@[simp] theorem State.setRegFlag_keys (s : State) (x : Reg) (b f : Byte) : (s.setRegFlag x b f).keys = s.keys := rfl
@[simp] theorem State.setRegFlag_fb (s : State) (x : Reg) (b f : Byte) : (s.setRegFlag x b f).fb = s.fb := rfl
@[simp] theorem State.setRegFlag_keyWait (s : State) (x : Reg) (b f : Byte) : (s.setRegFlag x b f).keyWait = s.keyWait := rfl
@[simp] theorem State.setRegFlag_runState (s : State) (x : Reg) (b f : Byte) : (s.setRegFlag x b f).runState = s.runState := rfl
@[simp] theorem State.setRegFlag_faultCause (s : State) (x : Reg) (b f : Byte) : (s.setRegFlag x b f).faultCause = s.faultCause := rfl
@[simp] theorem State.setRegFlag_cfg (s : State) (x : Reg) (b f : Byte) : (s.setRegFlag x b f).cfg = s.cfg := rfl
@[simp] theorem State.setRegFlag_draws (s : State) (x : Reg) (b f : Byte) : (s.setRegFlag x b f).draws = s.draws := rfl

/-! ### takeFault -/

@[simp] theorem State.takeFault_mem (s : State) (c : FaultCause) : (s.takeFault c).mem = s.mem := rfl
@[simp] theorem State.takeFault_v (s : State) (c : FaultCause) : (s.takeFault c).v = s.v := rfl
@[simp] theorem State.takeFault_i (s : State) (c : FaultCause) : (s.takeFault c).i = s.i := rfl
@[simp] theorem State.takeFault_pc (s : State) (c : FaultCause) : (s.takeFault c).pc = s.pc := rfl
@[simp] theorem State.takeFault_stack (s : State) (c : FaultCause) : (s.takeFault c).stack = s.stack := rfl
@[simp] theorem State.takeFault_sp (s : State) (c : FaultCause) : (s.takeFault c).sp = s.sp := rfl
@[simp] theorem State.takeFault_dt (s : State) (c : FaultCause) : (s.takeFault c).dt = s.dt := rfl
@[simp] theorem State.takeFault_st (s : State) (c : FaultCause) : (s.takeFault c).st = s.st := rfl
@[simp] theorem State.takeFault_keys (s : State) (c : FaultCause) : (s.takeFault c).keys = s.keys := rfl
@[simp] theorem State.takeFault_fb (s : State) (c : FaultCause) : (s.takeFault c).fb = s.fb := rfl
@[simp] theorem State.takeFault_keyWait (s : State) (c : FaultCause) : (s.takeFault c).keyWait = s.keyWait := rfl
@[simp] theorem State.takeFault_cfg (s : State) (c : FaultCause) : (s.takeFault c).cfg = s.cfg := rfl
@[simp] theorem State.takeFault_draws (s : State) (c : FaultCause) : (s.takeFault c).draws = s.draws := rfl
@[simp] theorem State.takeFault_runState (s : State) (c : FaultCause) : (s.takeFault c).runState = .halted := rfl
@[simp] theorem State.takeFault_faultCause (s : State) (c : FaultCause) : (s.takeFault c).faultCause = some c := rfl

/-! ### loadRegs -/

@[simp] theorem State.loadRegs_mem (s : State) (bytes : List Byte) : (s.loadRegs bytes).mem = s.mem := rfl
@[simp] theorem State.loadRegs_i (s : State) (bytes : List Byte) : (s.loadRegs bytes).i = s.i := rfl
@[simp] theorem State.loadRegs_pc (s : State) (bytes : List Byte) : (s.loadRegs bytes).pc = s.pc := rfl
@[simp] theorem State.loadRegs_stack (s : State) (bytes : List Byte) : (s.loadRegs bytes).stack = s.stack := rfl
@[simp] theorem State.loadRegs_sp (s : State) (bytes : List Byte) : (s.loadRegs bytes).sp = s.sp := rfl
@[simp] theorem State.loadRegs_dt (s : State) (bytes : List Byte) : (s.loadRegs bytes).dt = s.dt := rfl
@[simp] theorem State.loadRegs_st (s : State) (bytes : List Byte) : (s.loadRegs bytes).st = s.st := rfl
@[simp] theorem State.loadRegs_keys (s : State) (bytes : List Byte) : (s.loadRegs bytes).keys = s.keys := rfl
@[simp] theorem State.loadRegs_fb (s : State) (bytes : List Byte) : (s.loadRegs bytes).fb = s.fb := rfl
@[simp] theorem State.loadRegs_keyWait (s : State) (bytes : List Byte) : (s.loadRegs bytes).keyWait = s.keyWait := rfl
@[simp] theorem State.loadRegs_runState (s : State) (bytes : List Byte) : (s.loadRegs bytes).runState = s.runState := rfl
@[simp] theorem State.loadRegs_faultCause (s : State) (bytes : List Byte) : (s.loadRegs bytes).faultCause = s.faultCause := rfl
@[simp] theorem State.loadRegs_cfg (s : State) (bytes : List Byte) : (s.loadRegs bytes).cfg = s.cfg := rfl
@[simp] theorem State.loadRegs_draws (s : State) (bytes : List Byte) : (s.loadRegs bytes).draws = s.draws := rfl

/-! ### block -/

@[simp] theorem State.block_mem (s : State) : (s.block).mem = s.mem := rfl
@[simp] theorem State.block_v (s : State) : (s.block).v = s.v := rfl
@[simp] theorem State.block_i (s : State) : (s.block).i = s.i := rfl
@[simp] theorem State.block_stack (s : State) : (s.block).stack = s.stack := rfl
@[simp] theorem State.block_sp (s : State) : (s.block).sp = s.sp := rfl
@[simp] theorem State.block_dt (s : State) : (s.block).dt = s.dt := rfl
@[simp] theorem State.block_st (s : State) : (s.block).st = s.st := rfl
@[simp] theorem State.block_keys (s : State) : (s.block).keys = s.keys := rfl
@[simp] theorem State.block_fb (s : State) : (s.block).fb = s.fb := rfl
@[simp] theorem State.block_keyWait (s : State) : (s.block).keyWait = s.keyWait := rfl
@[simp] theorem State.block_runState (s : State) : (s.block).runState = s.runState := rfl
@[simp] theorem State.block_faultCause (s : State) : (s.block).faultCause = s.faultCause := rfl
@[simp] theorem State.block_cfg (s : State) : (s.block).cfg = s.cfg := rfl
@[simp] theorem State.block_draws (s : State) : (s.block).draws = s.draws := rfl
@[simp] theorem State.block_pc (s : State) : (s.block).pc = s.pc - 2 := rfl

/-! ### skipIf -/

@[simp] theorem State.skipIf_mem (s : State) (cond : Bool) : (s.skipIf cond).mem = s.mem := by cases cond <;> rfl
@[simp] theorem State.skipIf_v (s : State) (cond : Bool) : (s.skipIf cond).v = s.v := by cases cond <;> rfl
@[simp] theorem State.skipIf_i (s : State) (cond : Bool) : (s.skipIf cond).i = s.i := by cases cond <;> rfl
@[simp] theorem State.skipIf_stack (s : State) (cond : Bool) : (s.skipIf cond).stack = s.stack := by cases cond <;> rfl
@[simp] theorem State.skipIf_sp (s : State) (cond : Bool) : (s.skipIf cond).sp = s.sp := by cases cond <;> rfl
@[simp] theorem State.skipIf_dt (s : State) (cond : Bool) : (s.skipIf cond).dt = s.dt := by cases cond <;> rfl
@[simp] theorem State.skipIf_st (s : State) (cond : Bool) : (s.skipIf cond).st = s.st := by cases cond <;> rfl
@[simp] theorem State.skipIf_keys (s : State) (cond : Bool) : (s.skipIf cond).keys = s.keys := by cases cond <;> rfl
@[simp] theorem State.skipIf_fb (s : State) (cond : Bool) : (s.skipIf cond).fb = s.fb := by cases cond <;> rfl
@[simp] theorem State.skipIf_keyWait (s : State) (cond : Bool) : (s.skipIf cond).keyWait = s.keyWait := by cases cond <;> rfl
@[simp] theorem State.skipIf_runState (s : State) (cond : Bool) : (s.skipIf cond).runState = s.runState := by cases cond <;> rfl
@[simp] theorem State.skipIf_faultCause (s : State) (cond : Bool) : (s.skipIf cond).faultCause = s.faultCause := by cases cond <;> rfl
@[simp] theorem State.skipIf_cfg (s : State) (cond : Bool) : (s.skipIf cond).cfg = s.cfg := by cases cond <;> rfl
@[simp] theorem State.skipIf_draws (s : State) (cond : Bool) : (s.skipIf cond).draws = s.draws := by cases cond <;> rfl
@[simp] theorem State.skipIf_pc (s : State) (cond : Bool) : (s.skipIf cond).pc = if cond then s.pc + 2 else s.pc := by cases cond <;> rfl

/-! ### bumpIndex -/

@[simp] theorem State.bumpIndex_mem (s : State) (x : Reg) : (s.bumpIndex x).mem = s.mem := by unfold State.bumpIndex; split <;> rfl
@[simp] theorem State.bumpIndex_v (s : State) (x : Reg) : (s.bumpIndex x).v = s.v := by unfold State.bumpIndex; split <;> rfl
@[simp] theorem State.bumpIndex_pc (s : State) (x : Reg) : (s.bumpIndex x).pc = s.pc := by unfold State.bumpIndex; split <;> rfl
@[simp] theorem State.bumpIndex_stack (s : State) (x : Reg) : (s.bumpIndex x).stack = s.stack := by unfold State.bumpIndex; split <;> rfl
@[simp] theorem State.bumpIndex_sp (s : State) (x : Reg) : (s.bumpIndex x).sp = s.sp := by unfold State.bumpIndex; split <;> rfl
@[simp] theorem State.bumpIndex_dt (s : State) (x : Reg) : (s.bumpIndex x).dt = s.dt := by unfold State.bumpIndex; split <;> rfl
@[simp] theorem State.bumpIndex_st (s : State) (x : Reg) : (s.bumpIndex x).st = s.st := by unfold State.bumpIndex; split <;> rfl
@[simp] theorem State.bumpIndex_keys (s : State) (x : Reg) : (s.bumpIndex x).keys = s.keys := by unfold State.bumpIndex; split <;> rfl
@[simp] theorem State.bumpIndex_fb (s : State) (x : Reg) : (s.bumpIndex x).fb = s.fb := by unfold State.bumpIndex; split <;> rfl
@[simp] theorem State.bumpIndex_keyWait (s : State) (x : Reg) : (s.bumpIndex x).keyWait = s.keyWait := by unfold State.bumpIndex; split <;> rfl
@[simp] theorem State.bumpIndex_runState (s : State) (x : Reg) : (s.bumpIndex x).runState = s.runState := by unfold State.bumpIndex; split <;> rfl
@[simp] theorem State.bumpIndex_faultCause (s : State) (x : Reg) : (s.bumpIndex x).faultCause = s.faultCause := by unfold State.bumpIndex; split <;> rfl
@[simp] theorem State.bumpIndex_cfg (s : State) (x : Reg) : (s.bumpIndex x).cfg = s.cfg := by unfold State.bumpIndex; split <;> rfl
@[simp] theorem State.bumpIndex_draws (s : State) (x : Reg) : (s.bumpIndex x).draws = s.draws := by unfold State.bumpIndex; split <;> rfl
@[simp] theorem State.bumpIndex_i (s : State) (x : Reg) : (s.bumpIndex x).i = bif s.cfg.ldstIncrementI then s.i + BitVec.ofNat 16 (x.val + 1) else s.i := by unfold State.bumpIndex; split <;> simp [*]

/-! ### Reads of registers -/

@[simp] theorem State.reg_setReg_self (s : State) (x : Reg) (b : Byte) : (s.setReg x b).reg x = b := by
  simp [State.reg, State.setReg]

theorem State.reg_setReg_of_ne (s : State) {x y : Reg} (b : Byte) (h : y ≠ x) : (s.setReg x b).reg y = s.reg y := by
  have : x.val ≠ y.val := fun e => h (Fin.ext e.symm)
  simp [State.reg, State.setReg, this]

theorem State.reg_setReg (s : State) (x y : Reg) (b : Byte) :
    (s.setReg x b).reg y = if y = x then b else s.reg y := by
  split
  · next h => subst h; simp
  · next h => exact s.reg_setReg_of_ne b h

/-- The flag is what remains in VF, whatever the destination (R13). -/
@[simp] theorem State.reg_setRegFlag_regF (s : State) (x : Reg) (b f : Byte) : (s.setRegFlag x b f).reg regF = f := by
  simp [State.setRegFlag]

theorem State.reg_setRegFlag (s : State) (x y : Reg) (b f : Byte) :
    (s.setRegFlag x b f).reg y = if y = regF then f else if y = x then b else s.reg y := by
  simp only [State.setRegFlag, State.reg_setReg]

theorem State.reg_loadRegs (s : State) (bytes : List Byte) (y : Reg) :
    (s.loadRegs bytes).reg y = (bytes[y.val]?).getD (s.reg y) := by
  simp [State.reg, State.loadRegs]

/-- A register's value depends on the register file alone. -/
theorem State.reg_congr {s t : State} (h : t.v = s.v) (x : Reg) : t.reg x = s.reg x := by
  simp [State.reg, h]

@[simp] theorem State.reg_advance (s : State) (y : Reg) : (s.advance).reg y = s.reg y := State.reg_congr (by simp) y
@[simp] theorem State.reg_skipIf (s : State) (cond : Bool) (y : Reg) : (s.skipIf cond).reg y = s.reg y := State.reg_congr (by simp) y
@[simp] theorem State.reg_takeFault (s : State) (c : FaultCause) (y : Reg) : (s.takeFault c).reg y = s.reg y := State.reg_congr (by simp) y
@[simp] theorem State.reg_block (s : State) (y : Reg) : (s.block).reg y = s.reg y := State.reg_congr (by simp) y
@[simp] theorem State.reg_bumpIndex (s : State) (x : Reg) (y : Reg) : (s.bumpIndex x).reg y = s.reg y := State.reg_congr (by simp) y

/-! ### Reads of memory -/

/-- A byte read depends on the memory and the font alone. -/
theorem State.byteAt_congr {s t : State} (hm : t.mem = s.mem) (hc : t.cfg = s.cfg) (a : Nat) : t.byteAt a = s.byteAt a := by
  simp [State.byteAt, hm, hc]

@[simp] theorem State.byteAt_advance (s : State) (k : Nat) : (s.advance).byteAt k = s.byteAt k := State.byteAt_congr (by simp) (by simp) k
@[simp] theorem State.byteAt_skipIf (s : State) (cond : Bool) (k : Nat) : (s.skipIf cond).byteAt k = s.byteAt k := State.byteAt_congr (by simp) (by simp) k
@[simp] theorem State.byteAt_takeFault (s : State) (c : FaultCause) (k : Nat) : (s.takeFault c).byteAt k = s.byteAt k := State.byteAt_congr (by simp) (by simp) k
@[simp] theorem State.byteAt_block (s : State) (k : Nat) : (s.block).byteAt k = s.byteAt k := State.byteAt_congr (by simp) (by simp) k
@[simp] theorem State.byteAt_bumpIndex (s : State) (x : Reg) (k : Nat) : (s.bumpIndex x).byteAt k = s.byteAt k := State.byteAt_congr (by simp) (by simp) k
@[simp] theorem State.byteAt_setReg (s : State) (x : Reg) (b : Byte) (k : Nat) : (s.setReg x b).byteAt k = s.byteAt k := State.byteAt_congr (by simp) (by simp) k
@[simp] theorem State.byteAt_setRegFlag (s : State) (x : Reg) (b f : Byte) (k : Nat) : (s.setRegFlag x b f).byteAt k = s.byteAt k := State.byteAt_congr (by simp) (by simp) k
@[simp] theorem State.byteAt_loadRegs (s : State) (bytes : List Byte) (k : Nat) : (s.loadRegs bytes).byteAt k = s.byteAt k := State.byteAt_congr (by simp) (by simp) k

end Sys2Proof.Machine
end

