-- ==== Sys2Proof/Laws/Ops.lean ====
section
/-! SUPPORT. One spec lemma per shared operation: everything it can answer. -/

namespace Sys2Proof.Machine

/-! ### Ending an instruction -/

@[simp] theorem complete_ok (s t : State) : complete s (.ok t) = .next t := rfl

@[simp] theorem complete_error (s : State) (c : FaultCause) : complete s (.error c) = .next (s.takeFault c) := rfl

/-- An instruction that ends through `complete` answers a next state: its own, or fault entry (R405). -/
theorem complete_eq_next {s t : State} {e : Except FaultCause State} (h : complete s e = .next t) :
    e = .ok t ∨ ∃ c, e = .error c ∧ t = s.takeFault c := by
  cases e with
  | ok u => exact .inl (by simpa using h)
  | error c => exact .inr ⟨c, rfl, by simpa using h.symm⟩

theorem Except.map_eq_ok {α β : Type} {e : Except FaultCause α} {f : α → β} {b : β} (h : e.map f = .ok b) :
    ∃ a, e = .ok a ∧ b = f a := by
  cases e with
  | ok a => exact ⟨a, rfl, by simpa [Except.map] using h.symm⟩
  | error c => simp [Except.map] at h

theorem Except.map_eq_error {α β : Type} {e : Except FaultCause α} {f : α → β} {c : FaultCause}
    (h : e.map f = .error c) : e = .error c := by
  cases e with
  | ok a => simp [Except.map] at h
  | error d => simpa [Except.map] using h

/-- What an instruction made of a checked value answers: the value's state, or fault entry. -/
theorem complete_map_eq_next {α : Type} {s t : State} {e : Except FaultCause α} {f : α → State}
    (h : complete s (e.map f) = .next t) : (∃ a, e = .ok a ∧ t = f a) ∨ ∃ c, e = .error c ∧ t = s.takeFault c := by
  rcases complete_eq_next h with h | ⟨c, h, ht⟩
  · exact .inl (Except.map_eq_ok h)
  · exact .inr ⟨c, Except.map_eq_error h, ht⟩

/-! ### The call stack -/

/-- A push on a stack with room writes the entry at SP and counts it (R38). -/
theorem State.push_of_lt (s : State) (w : Word) (h : s.sp.val < stackDepth) :
    s.push w = .ok { s with stack := s.stack.set s.sp.val w h, sp := ⟨s.sp.val + 1, Nat.succ_lt_succ h⟩ } := by
  simp only [State.push, h, ↓reduceDIte]

/-- A push on a full stack is refused (R402). -/
theorem State.push_of_full (s : State) (w : Word) (h : ¬ s.sp.val < stackDepth) :
    s.push w = .error .stackOverflow := by
  simp only [State.push, h, ↓reduceDIte]

/-- A pop takes the entry below SP into pc (R38). -/
theorem State.popPc_of_pos (s : State) (n : Nat) (h : s.sp.val = n + 1) :
    ∃ t, s.popPc = .ok t ∧ t = { s with pc := t.pc, sp := t.sp } ∧ t.sp.val = n ∧ s.stack[n]? = some t.pc := by
  have hlt := s.sp.isLt
  have hpos : 0 < s.sp.val := by omega
  have hn : s.sp.val - 1 = n := by omega
  refine ⟨{ s with pc := s.stack[s.sp.val - 1]'(by omega), sp := ⟨s.sp.val - 1, by omega⟩ }, ?_, rfl, hn, ?_⟩
  · simp only [State.popPc, hpos, ↓reduceDIte]
  · simp only [hn]
    exact Vector.getElem?_eq_getElem (by omega)

/-- A pop of an empty stack is refused (R403). -/
theorem State.popPc_of_zero (s : State) (h : s.sp.val = 0) : s.popPc = .error .stackUnderflow := by
  simp [State.popPc, h]

/-! ### Addresses -/

theorem mapAddr_fault_of_le {c : Config} {a : Nat} (hc : c.addressPolicy = .fault) (h : a ≤ 0xFFF) :
    mapAddr c a = some a := by simp [mapAddr, hc, h]

theorem mapAddr_fault_of_gt {c : Config} {a : Nat} (hc : c.addressPolicy = .fault) (h : 0xFFF < a) :
    mapAddr c a = none := by simp [mapAddr, hc, h]

theorem mapAddr_wrap {c : Config} (a : Nat) (hc : c.addressPolicy = .wrap) : mapAddr c a = some (a % memSize) := by
  simp [mapAddr, hc]

/-- Every memory index is below 4096. -/
theorem mapAddr_lt {c : Config} {a b : Nat} (h : mapAddr c a = some b) : b < memSize := by
  unfold mapAddr at h
  split at h
  · split at h
    · simp only [Option.some.injEq] at h; simp only [memSize]; omega
    · simp at h
  · simp only [Option.some.injEq] at h; simp only [memSize] at *; omega

/-- Two addresses less than 4096 apart have different memory indexes. -/
theorem mapAddr_injective {c : Config} {a b k : Nat} (ha : mapAddr c a = some k) (hb : mapAddr c b = some k)
    (h : a < b + 4096) (h' : b < a + 4096) : a = b := by
  cases hc : c.addressPolicy with
  | fault =>
    simp only [mapAddr, hc, Option.ite_none_right_eq_some, Option.some.injEq] at ha hb
    omega
  | wrap =>
    simp only [mapAddr, hc, Option.some.injEq, memSize] at ha hb
    omega

/-- A block is mapped exactly when each of its addresses is. -/
theorem mapBlock_eq_some_iff (c : Config) (base n : Nat) (as : List Nat) :
    mapBlock c base n = some as ↔ as.length = n ∧ ∀ k < n, mapAddr c (base + k) = as[k]? := by
  induction n generalizing base as with
  | zero => simp [mapBlock, eq_comm]
  | succ n ih =>
    unfold mapBlock
    constructor
    · intro h
      split at h
      · next a bs ha hbs =>
        obtain ⟨hl, hk⟩ := (ih (base + 1) bs).mp hbs
        simp only [Option.some.injEq] at h
        subst h
        refine ⟨by simp [hl], fun k hk' => ?_⟩
        cases k with
        | zero => simpa using ha
        | succ k => have := hk k (by omega); simpa [Nat.add_assoc, Nat.add_comm 1 k] using this
      · simp at h
    · rintro ⟨hl, hk⟩
      cases as with
      | nil => simp at hl
      | cons a bs =>
        have h0 : mapAddr c base = some a := by simpa using hk 0 (by omega)
        have h1 : mapBlock c (base + 1) n = some bs :=
          (ih (base + 1) bs).mpr ⟨by simpa using hl, fun k hk' => by
            have := hk (k + 1) (by omega); simpa [Nat.add_assoc, Nat.add_comm 1 k] using this⟩
        rw [h0, h1]

/-- A block whose addresses are mapped by `f` is mapped to the indexes `f` gives. -/
theorem mapBlock_of_forall {c : Config} {base n : Nat} {f : Nat → Nat}
    (h : ∀ k < n, mapAddr c (base + k) = some (f k)) : mapBlock c base n = some ((List.range n).map f) := by
  rw [mapBlock_eq_some_iff]
  exact ⟨by simp, fun k hk => by simp [h k hk, hk]⟩

/-- A block with an address that does not exist is not mapped (R90). -/
theorem mapBlock_of_none {c : Config} {base n k : Nat} (hk : k < n) (h : mapAddr c (base + k) = none) :
    mapBlock c base n = none := by
  cases hb : mapBlock c base n with
  | none => rfl
  | some as =>
    obtain ⟨hl, hm⟩ := (mapBlock_eq_some_iff c base n as).mp hb
    have := hm k hk
    rw [h] at this
    simp [hl ▸ hk] at this

theorem mapBlock_lt {c : Config} {base n : Nat} {as : List Nat} (h : mapBlock c base n = some as) :
    ∀ a ∈ as, a < memSize := by
  intro a ha
  obtain ⟨hl, hm⟩ := (mapBlock_eq_some_iff c base n as).mp h
  obtain ⟨k, hk, rfl⟩ := List.getElem_of_mem ha
  have := hm k (hl ▸ hk)
  rw [List.getElem?_eq_getElem hk] at this
  exact mapAddr_lt this

/-- The indexes of a block of at most 4096 addresses differ. -/
theorem mapBlock_nodup {c : Config} {base n : Nat} {as : List Nat} (h : mapBlock c base n = some as) (hn : n ≤ 4096) :
    as.Nodup := by
  obtain ⟨hl, hm⟩ := (mapBlock_eq_some_iff c base n as).mp h
  rw [List.nodup_iff_injective_get]
  intro p q hpq
  have hp := hm p.val (hl ▸ p.isLt)
  have hq := hm q.val (hl ▸ q.isLt)
  simp only [List.get_eq_getElem] at hpq
  rw [List.getElem?_eq_getElem p.isLt] at hp
  rw [List.getElem?_eq_getElem q.isLt, ← hpq] at hq
  have := mapAddr_injective hp hq (by omega) (by omega)
  exact Fin.ext (by omega)

/-! ### Blocks of memory -/

/-- What reading a block answers: its bytes, or MEM_BOUNDS (R90). -/
theorem State.readBlock_cases (s : State) (base n : Nat) :
    (∃ as, mapBlock s.cfg base n = some as ∧ s.readBlock base n = .ok (as.map s.byteAt)) ∨
    (mapBlock s.cfg base n = none ∧ s.readBlock base n = .error .memBounds) := by
  unfold State.readBlock
  split
  · next as h => exact .inl ⟨as, h, rfl⟩
  · next h => exact .inr ⟨h, rfl⟩

/-- What a program's store of a block answers: the stores made, MEM_BOUNDS, or FONT_WRITE (R90, R91, R406). -/
theorem State.writeBlock_cases (s : State) (base : Nat) (bytes : List Byte) :
    (∃ as, mapBlock s.cfg base bytes.length = some as ∧ fontFault s.cfg as = false ∧ s.writeBlock base bytes =
      .ok { s with mem := Memory.writeAll s.cfg.font s.mem (storesMade s.cfg (as.zip bytes)) }) ∨
    (mapBlock s.cfg base bytes.length = none ∧ s.writeBlock base bytes = .error .memBounds) ∨
    (∃ as, mapBlock s.cfg base bytes.length = some as ∧ fontFault s.cfg as = true ∧
      s.writeBlock base bytes = .error .fontWrite) := by
  unfold State.writeBlock
  split
  · next h => exact .inr (.inl ⟨h, rfl⟩)
  · next as h =>
    split
    · next hf => exact .inr (.inr ⟨as, h, hf, rfl⟩)
    · next hf => exact .inl ⟨as, h, by simpa using hf, rfl⟩

theorem fontFault_eq_true_iff (c : Config) (as : List Nat) :
    fontFault c as = true ↔ c.fontWritePolicy = .fault ∧ ∃ a ∈ as, a < fontEnd := by
  simp [fontFault]

/-- A store is made, if it is one of the block and not an ignored one (R91). -/
theorem mem_storesMade_iff (c : Config) (ws : List (Nat × Byte)) (w : Nat × Byte) :
    w ∈ storesMade c ws ↔ w ∈ ws ∧ ¬ (c.fontWritePolicy = .ignore ∧ w.1 < fontEnd) := by
  unfold storesMade
  split
  · next h => simp [h]
  · next h =>
    have hn : c.fontWritePolicy ≠ .ignore := h
    simp [hn]

theorem storesMade_sublist (c : Config) (ws : List (Nat × Byte)) : (storesMade c ws).Sublist ws := by
  unfold storesMade
  split
  · exact List.filter_sublist
  · exact List.Sublist.refl ws

/-- The stores of a block keep the canonical form. -/
theorem Memory.wf_stores {c : Config} {font : Vector Byte 80} {m : List Host.Cell} {base n : Nat} {as : List Nat}
    (h : Memory.wf font m) (ha : mapBlock c base n = some as) (bytes : List Byte) :
    Memory.wf font (Memory.writeAll font m (storesMade c (as.zip bytes))) := by
  refine Memory.wf_writeAll font _ h fun w hw => ?_
  have hz := ((mem_storesMade_iff c _ w).mp hw).1
  exact mapBlock_lt ha w.1 (List.of_mem_zip hz).1

/-- An index outside the block keeps its byte. -/
theorem Memory.read_stores_of_not_mem {c : Config} (font : Vector Byte 80) (m : List Host.Cell) {as : List Nat}
    (bytes : List Byte) {a : Nat} (h : a ∉ as) :
    Memory.read font (Memory.writeAll font m (storesMade c (as.zip bytes))) a = Memory.read font m a := by
  refine Memory.read_writeAll_of_not_mem font m _ a fun w hw e => h ?_
  exact e ▸ (List.of_mem_zip ((mem_storesMade_iff c _ w).mp hw).1).1

/-- An index of the block holds the byte stored there, or its old byte where the store is ignored (R91). -/
theorem Memory.read_stores_of_mem {c : Config} {font : Vector Byte 80} {m : List Host.Cell} {as : List Nat}
    {bytes : List Byte} {a : Nat} {b : Byte} (hs : Memory.sorted m) (hd : as.Nodup) (h : (a, b) ∈ as.zip bytes)
    (hl : as.length ≤ bytes.length) :
    Memory.read font (Memory.writeAll font m (storesMade c (as.zip bytes))) a =
      if c.fontWritePolicy = .ignore ∧ a < fontEnd then Memory.read font m a else b := by
  have hfst : (as.zip bytes).map Prod.fst = as := List.map_fst_zip hl
  split
  · next hi =>
    refine Memory.read_writeAll_of_not_mem font m _ a fun w hw e => ?_
    exact ((mem_storesMade_iff c _ w).mp hw).2 ⟨hi.1, e ▸ hi.2⟩
  · next hi =>
    refine Memory.read_writeAll_of_mem font hs ?_ ((mem_storesMade_iff c _ _).mpr ⟨h, hi⟩)
    exact List.Nodup.sublist ((storesMade_sublist c (as.zip bytes)).map Prod.fst) (by rw [hfst]; exact hd)

/-! ### Pixels -/

/-- A grid of H rows of W pixels. -/
abbrev GridOf (c : Config) (fb : List (List Bool)) : Prop := fb.length = c.height ∧ ∀ row ∈ fb, row.length = c.width

theorem gridOf_clearFb (c : Config) : GridOf c (clearFb c) := by
  refine ⟨by simp [clearFb], fun row hr => ?_⟩
  rw [List.eq_of_mem_replicate hr]; simp

theorem pixelOf_clearFb (c : Config) (r k : Nat) : pixelOf (clearFb c) r k = false := by
  simp only [pixelOf, clearFb, List.getD_eq_getElem?_getD, List.getElem?_replicate]
  split
  · simp only [Option.getD_some, List.getElem?_replicate]; split <;> rfl
  · rfl

theorem gridOf_flipPixel {c : Config} {fb : List (List Bool)} (h : GridOf c fb) (r k : Nat) :
    GridOf c (flipPixel fb r k) := by
  refine ⟨by simp [flipPixel, h.1], fun row hr => ?_⟩
  obtain ⟨q, hq, rfl⟩ := List.getElem_of_mem hr
  have hq' : q < fb.length := by simpa [flipPixel] using hq
  have hrow := h.2 _ (List.getElem_mem hq')
  simp only [flipPixel, List.getElem_modify]
  split <;> simp [hrow]

/-- Inverting a pixel of the grid inverts it and leaves every other pixel alone. -/
theorem pixelOf_flipPixel {c : Config} {fb : List (List Bool)} (h : GridOf c fb) {r k : Nat} (hr : r < c.height)
    (hk : k < c.width) (r' k' : Nat) :
    pixelOf (flipPixel fb r k) r' k' = (pixelOf fb r' k' ^^ (r' == r && k' == k)) := by
  have hrl : r < fb.length := h.1 ▸ hr
  have hwl : k < fb[r].length := by rw [h.2 _ (List.getElem_mem hrl)]; exact hk
  simp only [pixelOf, flipPixel, List.getD_eq_getElem?_getD, List.getElem?_modify]
  by_cases e : r = r'
  · subst e
    simp only [List.getElem?_eq_getElem hrl, if_pos, Option.map_eq_map, Option.map_some, Option.getD_some,
      List.getElem?_modify, beq_self_eq_true, Bool.true_and]
    by_cases e' : k = k'
    · subst e'; simp [List.getElem?_eq_getElem hwl]
    · have : (k' == k) = false := by simpa using fun h => e' h.symm
      simp only [if_neg e', this, Bool.xor_false]
      cases fb[r][k']? <;> rfl
  · have : (r' == r) = false := by simpa using fun h => e h.symm
    simp only [if_neg e, this, Bool.false_and, Bool.xor_false]
    cases fb[r']? <;> rfl

/-- The pixels of a list all lie on the grid. -/
abbrev OnGrid (c : Config) (ps : List (Nat × Nat)) : Prop := ∀ p ∈ ps, p.1 < c.height ∧ p.2 < c.width

theorem gridOf_blit {c : Config} {fb : List (List Bool)} (h : GridOf c fb) (ps : List (Nat × Nat)) (hit : Bool) :
    GridOf c (blit ps (fb, hit)).1 := by
  induction ps generalizing fb hit with
  | nil => exact h
  | cons p ps ih => exact ih (gridOf_flipPixel h p.1 p.2) _

/-- Whether a pixel is listed an odd number of times. -/
def oddVisits (ps : List (Nat × Nat)) (r k : Nat) : Bool := decide (ps.count (r, k) % 2 = 1)

theorem oddVisits_cons (p : Nat × Nat) (ps : List (Nat × Nat)) (r k : Nat) :
    oddVisits (p :: ps) r k = ((r == p.1 && k == p.2) ^^ oddVisits ps r k) := by
  obtain ⟨a, b⟩ := p
  simp only [oddVisits, List.count_cons, Prod.mk.injEq, beq_iff_eq]
  by_cases e : a = r ∧ b = k
  · obtain ⟨rfl, rfl⟩ := e
    simp only [and_self, if_true, beq_self_eq_true, Bool.and_self]
    rcases Nat.mod_two_eq_zero_or_one (ps.count (a, b)) with h | h <;> simp [h, Nat.add_mod]
  · have : (r == a && k == b) = false := by
      simp only [Bool.and_eq_false_iff, beq_eq_false_iff_ne]
      by_contra hc; push Not at hc; exact e ⟨hc.1.symm, hc.2.symm⟩
    simp [e, this]

/-- After a blit each pixel is inverted once for each of its visits (R326). -/
theorem pixelOf_blit {c : Config} {fb : List (List Bool)} (h : GridOf c fb) {ps : List (Nat × Nat)} (hp : OnGrid c ps)
    (hit : Bool) (r k : Nat) : pixelOf (blit ps (fb, hit)).1 r k = (pixelOf fb r k ^^ oddVisits ps r k) := by
  induction ps generalizing fb hit with
  | nil => simp [blit, oddVisits]
  | cons p ps ih =>
    have h0 := hp p (by simp)
    have := ih (gridOf_flipPixel h p.1 p.2) (fun q hq => hp q (by simp [hq])) (hit || pixelOf fb p.1 p.2)
    rw [pixelOf_flipPixel h h0.1 h0.2] at this
    rw [oddVisits_cons, ← Bool.xor_assoc]
    exact this

/-- A blit reports a collision exactly when one was reported before or some visit meets a lit pixel, after the visits
before it (R323, R326). -/
theorem blit_hit_iff {c : Config} {fb : List (List Bool)} (h : GridOf c fb) {ps : List (Nat × Nat)} (hp : OnGrid c ps)
    (hit : Bool) : (blit ps (fb, hit)).2 = true ↔
      hit = true ∨ ∃ pre p post, ps = pre ++ p :: post ∧ (pixelOf fb p.1 p.2 ^^ oddVisits pre p.1 p.2) = true := by
  induction ps generalizing fb hit with
  | nil => simp [blit]
  | cons q ps ih =>
    have h0 := hp q (by simp)
    have hi := ih (gridOf_flipPixel h q.1 q.2) (fun p hp' => hp p (by simp [hp'])) (hit || pixelOf fb q.1 q.2)
    have hb : blit (q :: ps) (fb, hit) = blit ps (flipPixel fb q.1 q.2, hit || pixelOf fb q.1 q.2) := rfl
    rw [hb, hi, Bool.or_eq_true, or_assoc]
    refine or_congr_right ?_
    constructor
    · rintro (hq | ⟨pre, p, post, rfl, hl⟩)
      · exact ⟨[], q, ps, rfl, by simpa [oddVisits] using hq⟩
      · refine ⟨q :: pre, p, post, rfl, ?_⟩
        rw [pixelOf_flipPixel h h0.1 h0.2] at hl
        rw [oddVisits_cons, ← Bool.xor_assoc]
        exact hl
    · rintro ⟨pre, p, post, he, hl⟩
      cases pre with
      | nil =>
        obtain ⟨rfl, rfl⟩ := by simpa using he
        exact .inl (by simpa [oddVisits] using hl)
      | cons q' pre =>
        obtain ⟨rfl, rfl⟩ := by simpa using he
        refine .inr ⟨pre, p, post, rfl, ?_⟩
        rw [pixelOf_flipPixel h h0.1 h0.2, Bool.xor_assoc, ← oddVisits_cons]
        exact hl

/-- Every pixel of a sprite lies on the grid, each coordinate being reduced (R324). -/
theorem onGrid_spritePixels {c : Config} (hc : 1 ≤ c.width ∧ 1 ≤ c.height) (ox row : Nat) (bytes : List Byte) :
    OnGrid c (spritePixels c ox row bytes) := by
  induction bytes generalizing row with
  | nil => simp [spritePixels]
  | cons b bs ih =>
    intro p hp
    rcases List.mem_append.mp hp with hp | hp
    · obtain ⟨j, -, rfl⟩ := List.mem_map.mp hp
      exact ⟨Nat.mod_lt _ hc.2, Nat.mod_lt _ hc.1⟩
    · exact ih (row + 1) p hp

/-- The pixels of a sprite whose bytes are `g m, g (m + 1), ...`, row by row (R322). -/
theorem spritePixels_range' (c : Config) (ox oy m n : Nat) (g : Nat → Byte) :
    spritePixels c ox (oy + m) ((List.range' m n).map g) =
      (List.range' m n).flatMap fun k => (spriteColumns (g k)).map fun j =>
        ((oy + k) % c.height, (ox + j) % c.width) := by
  induction n generalizing m with
  | zero => rfl
  | succ n ih =>
    simp only [List.range'_succ, List.map_cons, spritePixels, List.flatMap_cons, spriteRowPixels]
    rw [Nat.add_assoc, ih]

/-! ### Blocks whose addresses are known -/

/-- A block whose addresses `f` maps is read as the bytes at the indexes `f` gives. -/
theorem State.readBlock_of_mapped {s : State} {base n : Nat} {f : Nat → Nat}
    (h : ∀ k < n, mapAddr s.cfg (base + k) = some (f k)) :
    s.readBlock base n = .ok ((List.range n).map fun k => s.byteAt (f k)) := by
  simp only [State.readBlock, mapBlock_of_forall h, List.map_map]
  rfl

/-- A store to a block whose addresses `f` maps, none of them refused by the font policy, is made. -/
theorem State.writeBlock_of_mapped {s : State} {base : Nat} {bytes : List Byte} {f : Nat → Nat}
    (h : ∀ k < bytes.length, mapAddr s.cfg (base + k) = some (f k))
    (hf : s.cfg.fontWritePolicy = .fault → ∀ k < bytes.length, fontEnd ≤ f k) :
    s.writeBlock base bytes = .ok { s with
      mem := Memory.writeAll s.cfg.font s.mem (storesMade s.cfg (((List.range bytes.length).map f).zip bytes)) } := by
  have hn : fontFault s.cfg ((List.range bytes.length).map f) = false := by
    by_contra hc
    obtain ⟨hp, a, ha, hl⟩ := (fontFault_eq_true_iff _ _).mp (by simpa using hc)
    obtain ⟨k, hk, rfl⟩ := by simpa using ha
    have := hf hp k hk
    omega
  simp only [State.writeBlock, mapBlock_of_forall h, hn, Bool.false_eq_true, if_false]

end Sys2Proof.Machine
end

