-- ==== Sys2Proof/Laws/PerInstr.lean ====
section
/-! SUPPORT. For every instruction: its encoded word matches a row of the opcode table that builds it back. -/

namespace Sys2Proof.Laws.EncodedRow

/-- The word of `i` matches a row of the table, and that row reads its operands back from the word, under every
configuration (30_encoding.md R123, R125). -/
def Statement (i : Instr) : Prop :=
  ∀ c, ∃ r ∈ opcodeRows c, r.matchesWord (encode i) = true ∧ r.build (encode i) = i

/-- A word of 5XY0 or 9XY0 passes the row's test whether or not the low nibble counts (R127). -/
theorem packXY_mask59 (c : Config) (top : Nibble) (x y : Reg) :
    packXY top x y 0 &&& mask59 c = placeTop top := by
  unfold mask59
  split
  · rw [packXY_topLow]; simp
  · exact packXY_top top x y 0

theorem cls : Statement .cls := fun _ => ⟨⟨0xFFFF, 0x00E0, fun _ => .cls⟩, by simp [opcodeRows, rowsAddr], rfl, rfl⟩

theorem ret : Statement .ret := fun _ => ⟨⟨0xFFFF, 0x00EE, fun _ => .ret⟩, by simp [opcodeRows, rowsAddr], rfl, rfl⟩

theorem jp (nnn : Addr12) : Statement (.jp nnn) := fun _ =>
  ⟨⟨0xF000, 0x1000, fun op => .jp (fieldNNN op)⟩, by simp [opcodeRows, rowsAddr],
    by simp only [OpcodeRow.matchesWord, encode, packAddr_top]; rfl, by simp [encode]⟩

theorem call (nnn : Addr12) : Statement (.call nnn) := fun _ =>
  ⟨⟨0xF000, 0x2000, fun op => .call (fieldNNN op)⟩, by simp [opcodeRows, rowsAddr],
    by simp only [OpcodeRow.matchesWord, encode, packAddr_top]; rfl, by simp [encode]⟩

theorem seImm (x : Reg) (nn : Byte) : Statement (.seImm x nn) := fun _ =>
  ⟨⟨0xF000, 0x3000, fun op => .seImm (fieldX op) (fieldNN op)⟩, by simp [opcodeRows, rowsImm],
    by simp only [OpcodeRow.matchesWord, encode, packXNN_top]; rfl, by simp [encode]⟩

theorem sneImm (x : Reg) (nn : Byte) : Statement (.sneImm x nn) := fun _ =>
  ⟨⟨0xF000, 0x4000, fun op => .sneImm (fieldX op) (fieldNN op)⟩, by simp [opcodeRows, rowsImm],
    by simp only [OpcodeRow.matchesWord, encode, packXNN_top]; rfl, by simp [encode]⟩

theorem seReg (x y : Reg) : Statement (.seReg x y) := fun c =>
  ⟨⟨mask59 c, 0x5000, fun op => .seReg (fieldX op) (fieldY op)⟩, by simp [opcodeRows, rowsXY],
    by simp only [OpcodeRow.matchesWord, encode, packXY_mask59]; rfl, by simp [encode]⟩

theorem ldImm (x : Reg) (nn : Byte) : Statement (.ldImm x nn) := fun _ =>
  ⟨⟨0xF000, 0x6000, fun op => .ldImm (fieldX op) (fieldNN op)⟩, by simp [opcodeRows, rowsImm],
    by simp only [OpcodeRow.matchesWord, encode, packXNN_top]; rfl, by simp [encode]⟩

theorem addImm (x : Reg) (nn : Byte) : Statement (.addImm x nn) := fun _ =>
  ⟨⟨0xF000, 0x7000, fun op => .addImm (fieldX op) (fieldNN op)⟩, by simp [opcodeRows, rowsImm],
    by simp only [OpcodeRow.matchesWord, encode, packXNN_top]; rfl, by simp [encode]⟩

theorem ldReg (x y : Reg) : Statement (.ldReg x y) := fun _ =>
  ⟨⟨0xF00F, 0x8000, fun op => .ldReg (fieldX op) (fieldY op)⟩, by simp [opcodeRows, rowsXY],
    by simp only [OpcodeRow.matchesWord, encode, packXY_topLow]; rfl, by simp [encode]⟩

theorem or (x y : Reg) : Statement (.or x y) := fun _ =>
  ⟨⟨0xF00F, 0x8001, fun op => .or (fieldX op) (fieldY op)⟩, by simp [opcodeRows, rowsXY],
    by simp only [OpcodeRow.matchesWord, encode, packXY_topLow]; rfl, by simp [encode]⟩

theorem and (x y : Reg) : Statement (.and x y) := fun _ =>
  ⟨⟨0xF00F, 0x8002, fun op => .and (fieldX op) (fieldY op)⟩, by simp [opcodeRows, rowsXY],
    by simp only [OpcodeRow.matchesWord, encode, packXY_topLow]; rfl, by simp [encode]⟩

theorem xor (x y : Reg) : Statement (.xor x y) := fun _ =>
  ⟨⟨0xF00F, 0x8003, fun op => .xor (fieldX op) (fieldY op)⟩, by simp [opcodeRows, rowsXY],
    by simp only [OpcodeRow.matchesWord, encode, packXY_topLow]; rfl, by simp [encode]⟩

theorem addReg (x y : Reg) : Statement (.addReg x y) := fun _ =>
  ⟨⟨0xF00F, 0x8004, fun op => .addReg (fieldX op) (fieldY op)⟩, by simp [opcodeRows, rowsXY],
    by simp only [OpcodeRow.matchesWord, encode, packXY_topLow]; rfl, by simp [encode]⟩

theorem sub (x y : Reg) : Statement (.sub x y) := fun _ =>
  ⟨⟨0xF00F, 0x8005, fun op => .sub (fieldX op) (fieldY op)⟩, by simp [opcodeRows, rowsXY],
    by simp only [OpcodeRow.matchesWord, encode, packXY_topLow]; rfl, by simp [encode]⟩

theorem shr (x y : Reg) : Statement (.shr x y) := fun _ =>
  ⟨⟨0xF00F, 0x8006, fun op => .shr (fieldX op) (fieldY op)⟩, by simp [opcodeRows, rowsXY],
    by simp only [OpcodeRow.matchesWord, encode, packXY_topLow]; rfl, by simp [encode]⟩

theorem subn (x y : Reg) : Statement (.subn x y) := fun _ =>
  ⟨⟨0xF00F, 0x8007, fun op => .subn (fieldX op) (fieldY op)⟩, by simp [opcodeRows, rowsXY],
    by simp only [OpcodeRow.matchesWord, encode, packXY_topLow]; rfl, by simp [encode]⟩

theorem shl (x y : Reg) : Statement (.shl x y) := fun _ =>
  ⟨⟨0xF00F, 0x800E, fun op => .shl (fieldX op) (fieldY op)⟩, by simp [opcodeRows, rowsXY],
    by simp only [OpcodeRow.matchesWord, encode, packXY_topLow]; rfl, by simp [encode]⟩

theorem sneReg (x y : Reg) : Statement (.sneReg x y) := fun c =>
  ⟨⟨mask59 c, 0x9000, fun op => .sneReg (fieldX op) (fieldY op)⟩, by simp [opcodeRows, rowsXY],
    by simp only [OpcodeRow.matchesWord, encode, packXY_mask59]; rfl, by simp [encode]⟩

theorem ldI (nnn : Addr12) : Statement (.ldI nnn) := fun _ =>
  ⟨⟨0xF000, 0xA000, fun op => .ldI (fieldNNN op)⟩, by simp [opcodeRows, rowsAddr],
    by simp only [OpcodeRow.matchesWord, encode, packAddr_top]; rfl, by simp [encode]⟩

theorem jpV0 (nnn : Addr12) : Statement (.jpV0 nnn) := fun _ =>
  ⟨⟨0xF000, 0xB000, fun op => .jpV0 (fieldNNN op)⟩, by simp [opcodeRows, rowsAddr],
    by simp only [OpcodeRow.matchesWord, encode, packAddr_top]; rfl, by simp [encode]⟩

theorem rnd (x : Reg) (nn : Byte) : Statement (.rnd x nn) := fun _ =>
  ⟨⟨0xF000, 0xC000, fun op => .rnd (fieldX op) (fieldNN op)⟩, by simp [opcodeRows, rowsImm],
    by simp only [OpcodeRow.matchesWord, encode, packXNN_top]; rfl, by simp [encode]⟩

theorem drw (x y : Reg) (n : Nibble) : Statement (.drw x y n) := fun _ =>
  ⟨⟨0xF000, 0xD000, fun op => .drw (fieldX op) (fieldY op) (fieldN op)⟩, by simp [opcodeRows, rowsImm],
    by simp only [OpcodeRow.matchesWord, encode, packXY_top]; rfl, by simp [encode]⟩

theorem skp (x : Reg) : Statement (.skp x) := fun _ =>
  ⟨⟨0xF0FF, 0xE09E, fun op => .skp (fieldX op)⟩, by simp [opcodeRows, rowsX],
    by simp only [OpcodeRow.matchesWord, encode, packXNN_topLow]; rfl, by simp [encode]⟩

theorem sknp (x : Reg) : Statement (.sknp x) := fun _ =>
  ⟨⟨0xF0FF, 0xE0A1, fun op => .sknp (fieldX op)⟩, by simp [opcodeRows, rowsX],
    by simp only [OpcodeRow.matchesWord, encode, packXNN_topLow]; rfl, by simp [encode]⟩

theorem ldVxDt (x : Reg) : Statement (.ldVxDt x) := fun _ =>
  ⟨⟨0xF0FF, 0xF007, fun op => .ldVxDt (fieldX op)⟩, by simp [opcodeRows, rowsX],
    by simp only [OpcodeRow.matchesWord, encode, packXNN_topLow]; rfl, by simp [encode]⟩

theorem ldK (x : Reg) : Statement (.ldK x) := fun _ =>
  ⟨⟨0xF0FF, 0xF00A, fun op => .ldK (fieldX op)⟩, by simp [opcodeRows, rowsX],
    by simp only [OpcodeRow.matchesWord, encode, packXNN_topLow]; rfl, by simp [encode]⟩

theorem ldDt (x : Reg) : Statement (.ldDt x) := fun _ =>
  ⟨⟨0xF0FF, 0xF015, fun op => .ldDt (fieldX op)⟩, by simp [opcodeRows, rowsX],
    by simp only [OpcodeRow.matchesWord, encode, packXNN_topLow]; rfl, by simp [encode]⟩

theorem ldSt (x : Reg) : Statement (.ldSt x) := fun _ =>
  ⟨⟨0xF0FF, 0xF018, fun op => .ldSt (fieldX op)⟩, by simp [opcodeRows, rowsX],
    by simp only [OpcodeRow.matchesWord, encode, packXNN_topLow]; rfl, by simp [encode]⟩

theorem addI (x : Reg) : Statement (.addI x) := fun _ =>
  ⟨⟨0xF0FF, 0xF01E, fun op => .addI (fieldX op)⟩, by simp [opcodeRows, rowsX],
    by simp only [OpcodeRow.matchesWord, encode, packXNN_topLow]; rfl, by simp [encode]⟩

theorem ldF (x : Reg) : Statement (.ldF x) := fun _ =>
  ⟨⟨0xF0FF, 0xF029, fun op => .ldF (fieldX op)⟩, by simp [opcodeRows, rowsX],
    by simp only [OpcodeRow.matchesWord, encode, packXNN_topLow]; rfl, by simp [encode]⟩

theorem ldB (x : Reg) : Statement (.ldB x) := fun _ =>
  ⟨⟨0xF0FF, 0xF033, fun op => .ldB (fieldX op)⟩, by simp [opcodeRows, rowsX],
    by simp only [OpcodeRow.matchesWord, encode, packXNN_topLow]; rfl, by simp [encode]⟩

theorem stRegs (x : Reg) : Statement (.stRegs x) := fun _ =>
  ⟨⟨0xF0FF, 0xF055, fun op => .stRegs (fieldX op)⟩, by simp [opcodeRows, rowsX],
    by simp only [OpcodeRow.matchesWord, encode, packXNN_topLow]; rfl, by simp [encode]⟩

theorem ldRegs (x : Reg) : Statement (.ldRegs x) := fun _ =>
  ⟨⟨0xF0FF, 0xF065, fun op => .ldRegs (fieldX op)⟩, by simp [opcodeRows, rowsX],
    by simp only [OpcodeRow.matchesWord, encode, packXNN_topLow]; rfl, by simp [encode]⟩

end Sys2Proof.Laws.EncodedRow
end

