-- ==== Sys2Proof/Laws/Step.lean ====
section
/-! SUPPORT. What the fetch answers, and a step in Running as its fetch and its decoded word. -/

namespace Sys2Proof.Machine

/-- A step in Running: the fetch, and then the decoded word (R200). -/
theorem step_of_running {s : State} (h : s.runState = .running) :
    step s = match s.fetch with
      | .error c => raiseFault s c
      | .ok op =>
        match decode s.cfg op with
        | .instr i      => exec i s
        | .unassigned _ => execUnassigned s := by
  cases s
  cases h
  rfl

theorem step_of_fetch_error {s : State} {c : FaultCause} (h : s.runState = .running) (hf : s.fetch = .error c) :
    step s = .next (s.takeFault c) := by
  rw [step_of_running h, hf]; rfl

theorem step_of_instr {s : State} {op : Word} {i : Instr} (h : s.runState = .running) (hf : s.fetch = .ok op)
    (hd : decode s.cfg op = .instr i) : step s = exec i s := by
  rw [step_of_running h, hf]; simp only [hd]

theorem step_of_unassigned {s : State} {op op' : Word} (h : s.runState = .running) (hf : s.fetch = .ok op)
    (hd : decode s.cfg op = .unassigned op') : step s = .next s.advance := by
  rw [step_of_running h, hf]; simp only [hd]; rfl

/-- What the fetch answers: the word of two mapped bytes, or MEM_BOUNDS (R201). -/
theorem State.fetch_cases (s : State) :
    (∃ a b, mapAddr s.cfg s.pc.toNat = some a ∧ mapAddr s.cfg (s.pc.toNat + 1) = some b ∧
      s.fetch = .ok (wordOfBytes (s.byteAt a) (s.byteAt b))) ∨
    ((mapAddr s.cfg s.pc.toNat = none ∨ mapAddr s.cfg (s.pc.toNat + 1) = none) ∧ s.fetch = .error .memBounds) := by
  unfold State.fetch
  split
  · next a b ha hb => exact .inl ⟨a, b, ha, hb, rfl⟩
  · next h =>
    refine .inr ⟨?_, rfl⟩
    cases ha : mapAddr s.cfg s.pc.toNat with
    | none => exact .inl rfl
    | some a =>
      cases hb : mapAddr s.cfg (s.pc.toNat + 1) with
      | none => exact .inr rfl
      | some b => exact absurd hb (h a b ha)

/-- The only fault of a key index is KEY_RANGE (R366). -/
theorem keyIdx_cases (c : Config) (v : Byte) :
    (∃ k, keyIdx c v = .ok k ∧ k.val = v.toNat % 16 ∧ (v.toNat < 16 ∨ c.keyIndexPolicy = .mask)) ∨
    (keyIdx c v = .error .keyRange ∧ 16 ≤ v.toNat ∧ c.keyIndexPolicy = .fault) := by
  unfold keyIdx
  split
  · next h => exact .inl ⟨_, rfl, (Nat.mod_eq_of_lt h).symm, .inl h⟩
  · next h =>
    split
    · next hp => exact .inr ⟨rfl, by omega, hp⟩
    · next hp => exact .inl ⟨_, rfl, by simp, .inr hp⟩

/-- The lowest pressed key (R363). -/
theorem firstPressed_eq_some_iff (keys : Vector Bool 16) (k : Key) :
    firstPressed keys = some k ↔ keys[k] = true ∧ ∀ q : Key, q < k → keys[q] = false := by
  unfold firstPressed
  rw [List.find?_eq_some_iff_getElem]
  constructor
  · rintro ⟨hk, i, hi, he, hb⟩
    simp only [List.length_finRange] at hi
    simp only [List.getElem_finRange] at he
    refine ⟨hk, fun q hq => ?_⟩
    have := hb q.val (by rw [← he] at hq; exact hq)
    simpa using this
  · rintro ⟨hk, hb⟩
    refine ⟨hk, k.val, by simp, by simp, fun j hj => ?_⟩
    have := hb ⟨j, by omega⟩ hj
    simpa using this

theorem firstPressed_eq_none_iff (keys : Vector Bool 16) :
    firstPressed keys = none ↔ ∀ q : Key, keys[q] = false := by
  simp [firstPressed, List.find?_eq_none]

/-- How many registers FX55 stores (R285). -/
theorem State.length_regsUpTo (s : State) (x : Reg) : (s.regsUpTo x).length = x.val + 1 := by
  simp [State.regsUpTo]

theorem State.getElem?_regsUpTo (s : State) {x k : Reg} (h : k ≤ x) : (s.regsUpTo x)[k.val]? = some (s.reg k) := by
  have : k.val < x.val + 1 := Nat.lt_succ_of_le h
  simp [State.regsUpTo, State.reg, this]

end Sys2Proof.Machine
end

