-- ==== Sys2Proof/Tests/Slice0.lean ====
section
/-! SUPPORT. The model's own tests: decoded words, the ill-formed terms each check refuses, one or two vectors of
spec/95_test_vectors.md per instruction, and for each statement with hypotheses states and operands that meet them. -/

namespace Sys2Proof.Tests

open Sys2Proof.Machine Sys2Proof.Claims

/-! ### Helpers -/

/-- The state after reset with pc at the entry point, as after a load of nothing. -/
def base : State := { State.reset with pc := 0x200 }

/-- `base` under another configuration. -/
def baseOf (c : Config) : State := { State.resetWith c with pc := 0x200 }

/-- `s` with bytes placed from address `a` on. -/
def put (s : State) (a : Nat) (bytes : List Byte) : State :=
  { s with mem := Memory.writeAll s.cfg.font s.mem ((List.range' a bytes.length).zip bytes) }

/-- `s` with an instruction word at address `a`, and pc there. -/
def code (s : State) (a : Nat) (w : Word) : State := { put s a (bytesOfWord w) with pc := BitVec.ofNat 16 a }

/-- The next state of a result. -/
def nextOf : Result → Option State
  | .next t    => some t
  | .refused _ => none

/-- One step, looked at through `f`. -/
def after {α : Type} (s : State) (f : State → α) : Option α := (nextOf (step s)).map f

/-! ### Decoding: one word per instruction, written from the encodings of 30_encoding.md R134 -/

theorem test_decode_cls : decode Config.default 0x00E0 = .instr .cls := by decide
theorem test_decode_ret : decode Config.default 0x00EE = .instr .ret := by decide
theorem test_decode_jp : decode Config.default 0x1204 = .instr (.jp 0x204) := by decide
theorem test_decode_call : decode Config.default 0x2210 = .instr (.call 0x210) := by decide
theorem test_decode_seImm : decode Config.default 0x3A9C = .instr (.seImm 0xA 0x9C) := by decide
theorem test_decode_sneImm : decode Config.default 0x4205 = .instr (.sneImm 2 0x05) := by decide
theorem test_decode_seReg : decode Config.default 0x5340 = .instr (.seReg 3 4) := by decide
theorem test_decode_ldImm : decode Config.default 0x6A9C = .instr (.ldImm 0xA 0x9C) := by decide
theorem test_decode_addImm : decode Config.default 0x71FF = .instr (.addImm 1 0xFF) := by decide
theorem test_decode_ldReg : decode Config.default 0x8120 = .instr (.ldReg 1 2) := by decide
theorem test_decode_or : decode Config.default 0x8121 = .instr (.or 1 2) := by decide
theorem test_decode_and : decode Config.default 0x8122 = .instr (.and 1 2) := by decide
theorem test_decode_xor : decode Config.default 0x8123 = .instr (.xor 1 2) := by decide
theorem test_decode_addReg : decode Config.default 0x8F14 = .instr (.addReg 0xF 1) := by decide
theorem test_decode_sub : decode Config.default 0x8125 = .instr (.sub 1 2) := by decide
theorem test_decode_shr : decode Config.default 0x8126 = .instr (.shr 1 2) := by decide
theorem test_decode_subn : decode Config.default 0x8127 = .instr (.subn 1 2) := by decide
theorem test_decode_shl : decode Config.default 0x812E = .instr (.shl 1 2) := by decide
theorem test_decode_sneReg : decode Config.default 0x9340 = .instr (.sneReg 3 4) := by decide
theorem test_decode_ldI : decode Config.default 0xA300 = .instr (.ldI 0x300) := by decide
theorem test_decode_jpV0 : decode Config.default 0xBFFF = .instr (.jpV0 0xFFF) := by decide
theorem test_decode_rnd : decode Config.default 0xC30F = .instr (.rnd 3 0x0F) := by decide
theorem test_decode_drw : decode Config.default 0xD12A = .instr (.drw 1 2 0xA) := by decide
theorem test_decode_skp : decode Config.default 0xE59E = .instr (.skp 5) := by decide
theorem test_decode_sknp : decode Config.default 0xE5A1 = .instr (.sknp 5) := by decide
theorem test_decode_ldVxDt : decode Config.default 0xF307 = .instr (.ldVxDt 3) := by decide
theorem test_decode_ldK : decode Config.default 0xF30A = .instr (.ldK 3) := by decide
theorem test_decode_ldDt : decode Config.default 0xF415 = .instr (.ldDt 4) := by decide
theorem test_decode_ldSt : decode Config.default 0xF018 = .instr (.ldSt 0) := by decide
theorem test_decode_addI : decode Config.default 0xF21E = .instr (.addI 2) := by decide
theorem test_decode_ldF : decode Config.default 0xF129 = .instr (.ldF 1) := by decide
theorem test_decode_ldB : decode Config.default 0xFA33 = .instr (.ldB 0xA) := by decide
theorem test_decode_stRegs : decode Config.default 0xF255 = .instr (.stRegs 2) := by decide
theorem test_decode_ldRegs : decode Config.default 0xF265 = .instr (.ldRegs 2) := by decide

/-- Vectors ENC-1 to ENC-9: words next to assigned ones are unassigned. -/
theorem test_decode_unassigned :
    [0x0000, 0x0123, 0x00E1, 0x01E0, 0x5121, 0x9121, 0x8128, 0x812F, 0xE19F, 0xF1FF].all
      (fun w : Word => decode Config.default w == .unassigned w) = true := by decide

/-- Vectors ENC-5, ENC-6 with DECODE_5_9_STRICT = false. -/
theorem test_decode_lax_5_9 :
    decode { Config.default with decode59Strict := false } 0x5121 = .instr (.seReg 1 2) ∧
    decode { Config.default with decode59Strict := false } 0x9121 = .instr (.sneReg 1 2) := by decide

theorem test_decodeTableWord_big_endian : decodeTableWord 16 0x6A9C = some (.ldImm 0xA 0x9C) := by decide

theorem test_decodeTableWord_unassigned : decodeTableWord 16 0x0123 = none := by decide

/-! ### What the checks refuse -/

theorem test_config_without_columns_refused : ¬ ({ Config.default with width := 0 } : Config).WellFormed := by decide
theorem test_config_without_rows_refused : ¬ ({ Config.default with height := 0 } : Config).WellFormed := by decide
theorem test_default_config_accepted : Config.default.WellFormed := by decide
theorem test_long_program_refused : ¬ ProgramWellFormed (List.replicate 0xE01 0) :=
  fun h => absurd (Nat.le_trans (Nat.le_of_eq List.length_replicate.symm) h : 0xE01 ≤ maxProgram) (by decide)
theorem test_full_program_accepted : ProgramWellFormed (List.replicate 0xE00 0) :=
  Nat.le_of_eq List.length_replicate
theorem test_key_sixteen_refused : ¬ KeyNumberWellFormed 16 := by decide

/-! ### The step (95 §2.1) -/

/-- STEP-2: a fetch across the end of memory faults, and pc stays. -/
theorem test_fetch_past_end :
    after { base with pc := 0xFFF } (fun t => (t.pc, t.runState, faultCode t.faultCause)) =
      some (0xFFF, .halted, 3) := by decide

/-- STEP-2 under ADDRESS_POLICY = wrap: the bytes at 0xFFF and 0x000 (F0 of glyph 0): 12F0 jumps to 0x2F0. -/
theorem test_fetch_wraps :
    after { put (baseOf { Config.default with addressPolicy := .wrap }) 0xFFF [0x12] with pc := 0xFFF }
      (fun t => t.pc) = some 0x2F0 := by decide

/-- STEP-4: an odd pc fetches normally. -/
theorem test_fetch_odd :
    after { put base 0x201 [0x61, 0x2A] with pc := 0x201 } (fun t => (t.reg 1, t.pc)) = some (0x2A, 0x203) := by
  decide

/-- STEP-7: after reset with no load, 0xF090 is a no-op. -/
theorem test_step_from_reset : after State.reset (fun t => t.pc) = some 2 := by decide

/-- STEP-6: nothing happens in Halted. -/
theorem test_step_halted :
    after { code base 0x300 0x6105 with runState := .halted } (fun t => (t.reg 1, t.pc)) = some (0, 0x300) := by
  decide

/-- A placed word is the next one to run, and placing it from reset is the host's load of its bytes. -/
theorem test_withFetchWord_is_load :
    State.reset.withFetchWord 16 0x6A9C = (State.reset.load [0x6A, 0x9C]).2 := by decide

theorem test_withFetchWord_runs :
    after (State.reset.withFetchWord 16 0x6A9C) (fun t => (t.reg 0xA, t.pc)) = some (0x9C, 0x202) := by decide

/-! ### Control transfer (95 §2.2) -/

/-- RET-1. -/
theorem test_ret :
    after { code base 0x300 0x00EE with stack := base.stack.set 0 0x206, sp := 1 } (fun t => (t.pc, t.sp)) =
      some (0x206, 0) := by decide

/-- RET-2. -/
theorem test_ret_empty :
    after (code base 0x200 0x00EE) (fun t => (t.pc, t.sp, t.runState, faultCode t.faultCause)) =
      some (0x200, 0, .halted, 2) := by decide

/-- JP-1. -/
theorem test_jp : after (code base 0x20A 0x1204) (fun t => t.pc) = some 0x204 := by decide

/-- CALL-1. -/
theorem test_call :
    after (code base 0x204 0x2210) (fun t => (t.stack[0], t.sp, t.pc)) = some (0x206, 1, 0x210) := by decide

/-- CALL-3. -/
theorem test_call_full :
    after { code base 0x300 0x2400 with sp := 12 } (fun t => (t.pc, t.sp, faultCode t.faultCause)) =
      some (0x300, 12, 1) := by decide

/-- SE-1. -/
theorem test_seImm : after (code base 0x208 0x3100) (fun t => t.pc) = some 0x20C := by decide

/-- SNE-1. -/
theorem test_sneImm : after (code (base.setReg 2 5) 0x300 0x4205) (fun t => t.pc) = some 0x302 := by decide

/-- SER-2. -/
theorem test_seReg :
    after (code ((base.setReg 3 0x10).setReg 4 0x11) 0x300 0x5340) (fun t => t.pc) = some 0x302 := by decide

/-- SNER-1. -/
theorem test_sneReg :
    after (code ((base.setReg 3 0x10).setReg 4 0x11) 0x300 0x9340) (fun t => t.pc) = some 0x304 := by decide

/-- JPV0-2. -/
theorem test_jpV0 : after (code (base.setReg 0 0xFF) 0x200 0xBFFF) (fun t => t.pc) = some 0x10FE := by decide

/-! ### ALU (95 §1, §2.3): one word at 0x300 after V1, V2 and VF are set -/

/-- One step of `w` with V1, V2, VF given, seen in V1, V2, VF. -/
def alu (c : Config) (v1 v2 vf : Byte) (w : Word) : Option (Byte × Byte × Byte) :=
  after (code (((baseOf c).setReg 1 v1).setReg 2 v2 |>.setReg 15 vf) 0x300 w) (fun t => (t.reg 1, t.reg 2, t.reg 15))

/-- ALU-2: VF as a plain destination. -/
theorem test_ldImm : alu Config.default 0 0 1 0x6F05 = some (0, 0, 5) := by decide
/-- ALU-4: no carry flag. -/
theorem test_addImm : alu Config.default 0xFF 0 0 0x7101 = some (0, 0, 0) := by decide
/-- ALU-6. -/
theorem test_ldReg : alu Config.default 0 0x33 0 0x8120 = some (0x33, 0x33, 0) := by decide
/-- ALU-7. -/
theorem test_or : alu Config.default 0xF0 0x0F 0x77 0x8121 = some (0xFF, 0x0F, 0x77) := by decide
/-- ALU-8. -/
theorem test_and : alu Config.default 0xF0 0x3C 0x77 0x8122 = some (0x30, 0x3C, 0x77) := by decide
/-- ALU-9. -/
theorem test_xor : alu Config.default 0xF0 0x3C 0x77 0x8123 = some (0xCC, 0x3C, 0x77) := by decide
/-- L1-3. -/
theorem test_addReg : alu Config.default 0xFF 0x01 0 0x8124 = some (0, 1, 1) := by decide
/-- ALU-14: the flag is written last. -/
theorem test_addReg_into_flag : alu Config.default 0xF5 0 0x10 0x8F14 = some (0xF5, 0, 1) := by decide
/-- L1-4. -/
theorem test_sub : alu Config.default 0x05 0x0A 0 0x8125 = some (0xFB, 0x0A, 0) := by decide
/-- ALU-16: equality is no borrow. -/
theorem test_sub_equal : alu Config.default 7 7 0 0x8125 = some (0, 7, 1) := by decide
/-- ALU-23, default. -/
theorem test_shr : alu Config.default 3 0x80 0 0x8126 = some (0x40, 0x80, 0) := by decide
/-- ALU-23 with SHIFT_SOURCE = VX. -/
theorem test_shr_in_place :
    alu { Config.default with shiftSource := .vx } 3 0x80 0 0x8126 = some (1, 0x80, 1) := by decide
/-- ALU-20. -/
theorem test_subn : alu Config.default 0x0A 0x05 0 0x8127 = some (0xFB, 0x05, 0) := by decide
/-- ALU-28. -/
theorem test_shl : alu Config.default 1 0x80 0 0x812E = some (0, 0x80, 1) := by decide
/-- ALU-28 with SHIFT_SOURCE = VX. -/
theorem test_shl_in_place :
    alu { Config.default with shiftSource := .vx } 1 0x80 0 0x812E = some (2, 0x80, 0) := by decide
/-- ALU-29, the draw being given. -/
theorem test_rnd : ((rndWith 0xA7 3 0x0F base).reg 3, (rndWith 0xA7 3 0x0F base).pc) = (0x07, 0x202) := by decide

/-! ### Index and memory (95 §2.4) -/

/-- MEM-2. -/
theorem test_ldI : after (code base 0x200 0xAFFF) (fun t => t.i) = some 0xFFF := by decide
/-- MEM-4: no 12-bit reduction and no flag. -/
theorem test_addI :
    after (code { base.setReg 0 1 with i := 0xFFF } 0x200 0xF01E) (fun t => (t.i, t.reg 15)) = some (0x1000, 0) := by
  decide
/-- MEM-5. -/
theorem test_addI_wraps :
    after (code { base.setReg 0 2 with i := 0xFFFF } 0x200 0xF01E) (fun t => t.i) = some 1 := by decide
/-- MEM-9. -/
theorem test_ldF : after (code (base.setReg 1 0xFF) 0x200 0xF129) (fun t => t.i) = some 0x4FB := by decide
/-- MEM-10. -/
theorem test_ldB :
    after (code { base.setReg 0xA 0x9C with i := 0x300 } 0x200 0xFA33)
      (fun t => ([0x300, 0x301, 0x302].map t.byteAt, t.i, t.pc)) = some ([1, 5, 6], 0x300, 0x202) := by decide
/-- MEM-15 with FONT_WRITE_POLICY = ignore: only the byte at 0x050 is written. -/
theorem test_ldB_ignores_font :
    after (code { (baseOf { Config.default with fontWritePolicy := .ignore }).setReg 0 7 with i := 0x04E } 0x200 0xF033)
      (fun t => ([0x04E, 0x04F, 0x050].map t.byteAt, t.pc)) = some ([0x80, 0x80, 7], 0x202) := by decide
/-- MEM-21. -/
theorem test_stRegs_font :
    after (code { base with i := 0x04F } 0x200 0xF055) (fun t => (t.pc, t.i, faultCode t.faultCause)) =
      some (0x200, 0x04F, 4) := by decide
/-- MEM-16. -/
theorem test_stRegs :
    after (code { ((base.setReg 0 0x11).setReg 1 0x22).setReg 2 0x33 with i := 0x400 } 0x200 0xF255)
      (fun t => ([0x400, 0x401, 0x402].map t.byteAt, t.i)) = some ([0x11, 0x22, 0x33], 0x403) := by decide
/-- MEM-22. -/
theorem test_ldRegs :
    after (code { put base 0x300 [1, 5, 6] with i := 0x300 } 0x200 0xF265)
      (fun t => ([t.reg 0, t.reg 1, t.reg 2, t.reg 3], t.i)) = some ([1, 5, 6, 0], 0x303) := by decide
/-- MEM-25. -/
theorem test_ldRegs_bounds :
    after (code { base with i := 0xFFF } 0x200 0xF165) (fun t => (t.i, faultCode t.faultCause)) = some (0xFFF, 3) := by
  decide

/-! ### Display (95 §2.5) -/

/-- The lit pixels of a state. -/
def lit (s : State) : List (Nat × Nat) :=
  (List.range s.cfg.height).flatMap fun r =>
    ((List.range s.cfg.width).filter fun c => s.pixel r c).map fun c => (r, c)

/-- DSP-1. -/
theorem test_cls :
    after (code { base.setReg 15 0x55 with fb := flipPixel base.fb 31 63 } 0x200 0x00E0) (fun t => (lit t, t.reg 15)) =
      some ([], 0x55) := by decide
/-- DSP-5: one pixel collides, the other is lit. -/
theorem test_drw_collision :
    after (code { put base 0x300 [0xC0] with i := 0x300, fb := flipPixel base.fb 0 1 } 0x200 0xD011)
      (fun t => (lit t, t.reg 15)) = some ([(0, 0)], 1) := by decide
/-- P3's first draw: both edges wrap. -/
theorem test_drw_wraps :
    after (code { put ((base.setReg 0 0x3E).setReg 1 0x1F) 0x300 [0xC1, 0x81] with i := 0x300 } 0x200 0xD012)
      (fun t => (lit t, t.reg 15)) = some ([(0, 5), (0, 62), (31, 5), (31, 62), (31, 63)], 0) := by decide

/-! ### Keys and timers (95 §2.6) -/

/-- TI-7. -/
theorem test_skp :
    after (code { base.setReg 5 7 with keys := base.keys.set 7 true } 0x300 0xE59E) (fun t => t.pc) = some 0x304 := by
  decide
/-- TI-11. -/
theorem test_skp_range :
    after (code (base.setReg 5 0x10) 0x300 0xE59E) (fun t => (t.pc, faultCode t.faultCause)) = some (0x300, 5) := by
  decide
/-- TI-10. -/
theorem test_sknp :
    after (code { base.setReg 5 7 with keys := base.keys.set 7 true } 0x300 0xE5A1) (fun t => t.pc) = some 0x302 := by
  decide
/-- TI-1. -/
theorem test_ldVxDt :
    after (code { base with dt := 0x3C } 0x200 0xF307) (fun t => (t.reg 3, t.pc)) = some (0x3C, 0x202) := by
  decide
/-- TI-13: the lowest pressed key. -/
theorem test_ldK_press :
    after (code { base with keys := (base.keys.set 9 true).set 3 true } 0x200 0xF30A) (fun t => (t.pc, t.keyWait)) =
      some (0x200, .awaitingRelease 3) := by decide
/-- TI-16. -/
theorem test_ldK_release :
    after (code { base.setReg 15 1 with keyWait := .awaitingRelease 5 } 0x200 0xFF0A)
      (fun t => (t.reg 15, t.pc, t.keyWait)) = some (5, 0x202, .idle) := by decide
/-- TI-2. -/
theorem test_ldDt : after (code { base with dt := 0x10 } 0x200 0xF415) (fun t => t.dt) = some 0 := by decide
/-- TI-3. -/
theorem test_ldSt :
    after (code (base.setReg 0 5) 0x200 0xF018) (fun t => (t.st, t.outputs.soundActive)) = some (5, true) := by
  decide

/-! ### Host operations (95 §1, §2.6, §2.7) -/

/-- L1-12. -/
theorem test_ticks :
    (nextOf ({ base with dt := 2 }.applyAll [.tickTimers, .tickTimers, .tickTimers])).map (fun t => (t.dt, t.st)) =
      some (0, 0) := by decide
/-- RC-3. -/
theorem test_paused_halted : ({ base with runState := .halted }.setPaused false).runState = .halted := by decide
/-- RC-7. -/
theorem test_load :
    (({ base.setReg 3 7 with dt := 9, sp := 2, keyWait := .awaitingRelease 4 }.load [0x12, 0x00]).2).outputs.runState =
      .running ∧
    (let t := ({ base.setReg 3 7 with dt := 9, sp := 2, keyWait := .awaitingRelease 4 }.load [0x12, 0x00]).2
     (t.byteAt 0x200, t.pc, t.sp, t.keyWait, t.reg 3, t.dt)) = (0x12, 0x200, 0, .idle, 7, 9) := by decide
/-- R62. -/
theorem test_setKey_refused : nextOf (base.setKey 16 true) = none := by decide

/-! ### Witnesses: for each statement with hypotheses, states and operands that meet them together -/

/-- A sample state that meets the invariant, reached by a load. -/
def sample : State := (State.reset.load [0x60, 0x05]).2

theorem test_witness_inv : sample.Inv :=
  ⟨by decide, by decide, by decide, by decide⟩

/-- The same with I and a stack depth of the test's choice: the invariant does not speak of them. -/
theorem inv_of_sample (i : Word) (x : Reg) (b : Byte) : ({ sample.setReg x b with i := i } : State).Inv :=
  ⟨test_witness_inv.cfg, test_witness_inv.mem, test_witness_inv.grid, test_witness_inv.cause⟩

theorem test_witness_Selects_every_row_has_a_word :
    (opcodeRows Config.default).all (fun r => r.matchesWord r.pat) = true ∧
    (opcodeRows { Config.default with decode59Strict := false }).all (fun r => r.matchesWord r.pat) = true := by decide

theorem test_witness_DecodedWordEncodesBack :
    Config.default.decode59Strict = true ∧ decode Config.default 0xDFFF = .instr (.drw 15 15 15) := by decide

theorem test_witness_EightGroupSelectsByLowNibble :
    ([0x8AB0, 0x8AB1, 0x8AB2, 0x8AB3, 0x8AB4, 0x8AB5, 0x8AB6, 0x8AB7, 0x8ABE, 0x8AB8, 0x8ABF] : List Word).map
      (fun op => (op.extractLsb' 12 4, fieldN op)) =
    [(8, 0), (8, 1), (8, 2), (8, 3), (8, 4), (8, 5), (8, 6), (8, 7), (8, 0xE), (8, 8), (8, 0xF)] := by decide

theorem test_witness_StepRunsDecodedInstruction :
    sample.runState = .running ∧ mapAddr sample.cfg sample.pc.toNat = some 0x200 ∧
    mapAddr sample.cfg (sample.pc.toNat + 1) = some 0x201 ∧
    decode sample.cfg (wordOfBytes (sample.byteAt 0x200) (sample.byteAt 0x201)) = .instr (.ldImm 0 5) := by
  decide

/-- For FetchIsBigEndian at the last word of memory. -/
theorem test_witness_FetchIsBigEndian :
    mapAddr Config.default 0xFFE = some 0xFFE ∧ mapAddr Config.default (0xFFE + 1) = some 0xFFF := by decide

theorem test_witness_UnassignedWordIsNoOp :
    State.reset.runState = .running ∧ (State.reset.fetch).toOption = some 0xF090 ∧
    decode State.reset.cfg 0xF090 = .unassigned 0xF090 := by decide

theorem test_witness_StepOutsideRunning :
    (base.setPaused true).runState ≠ .running ∧ { base with runState := RunState.halted }.runState ≠ .running := by
  decide

theorem test_witness_AddressPolicyMapsAddresses :
    Config.default.addressPolicy = .fault ∧ ({ Config.default with addressPolicy := .wrap } : Config).addressPolicy =
      .wrap ∧ 0xFFF ≤ 0xFFF ∧ 0xFFF < 0x1000 := by decide

theorem test_witness_FetchBeyondMemoryFaults :
    ({ base with pc := 0xFFF } : State).runState = .running ∧ base.cfg.addressPolicy = .fault ∧
    0xFFE < ({ base with pc := 0xFFF } : State).pc.toNat ∧ ({ base with pc := 0xFFE } : State).pc.toNat ≤ 0xFFE ∧
    (baseOf { Config.default with addressPolicy := .wrap }).cfg.addressPolicy = .wrap := by decide

/-- For every statement whose hypothesis is that an instruction answers a next state: one completes, one faults. -/
theorem test_witness_exec_answers_next :
    exec (.ldImm 0 5) base = .next (base.advance.setReg 0 5) ∧ exec .ret base = .next (base.takeFault .stackUnderflow) :=
  ⟨rfl, rfl⟩

theorem test_witness_StepKeepsInv : sample.Inv ∧ step sample = .next (sample.advance.setReg 0 5) :=
  ⟨test_witness_inv, by
    have hf : sample.fetch = .ok 0x6005 := by rfl
    have hd : decode sample.cfg 0x6005 = .instr (.ldImm 0 5) := by decide
    unfold step
    rw [show sample.runState = .running from rfl, hf]
    simp only [hd]
    rfl⟩

theorem test_witness_ResetMeetsInv : ({ Config.default with width := 1, height := 1 } : Config).WellFormed := by decide

theorem test_witness_HostOperationsKeepInv :
    sample.Inv ∧ sample.applyAll [.setKey 15 true, .tickTimers, .setPaused true, .step] =
      .next ({ sample with keys := sample.keys.set 15 true }.tickTimers.setPaused true) :=
  ⟨test_witness_inv, rfl⟩

theorem test_witness_FontStaysImmutable :
    base.cfg.fontWritePolicy ≠ .write ∧ base.FontIntact ∧ base.apply .tickTimers = .next base.tickTimers := by
  refine ⟨by decide, fun a h => ?_, rfl⟩
  have : a < 80 := h
  simp [State.byteAt, base, State.reset, State.resetWith, Memory.read, Memory.unlisted, this]

theorem test_witness_CanonicalMemoryIsExtensional :
    Memory.wf defaultFont [(0x200, 0x12), (0xFFF, 1)] ∧ Memory.wf defaultFont (put base 0x300 [0, 7]).mem := by
  decide

theorem test_witness_LoadRejectsTooLarge :
    0xE00 < (List.replicate 0xE01 (0 : Byte)).length ∧ sample.Inv ∧ (List.replicate 0xE00 (0 : Byte)).length = 0xE00 :=
  ⟨Nat.lt_of_lt_of_eq (by decide : 0xE00 < 0xE01) List.length_replicate.symm, test_witness_inv, List.length_replicate⟩

theorem test_witness_LoadPlacesProgram :
    sample.Inv ∧ ([0x12, 0x00] : List Byte).length ≤ 0xE00 ∧ 1 < ([0x12, 0x00] : List Byte).length :=
  ⟨test_witness_inv, by decide, by decide⟩

theorem test_witness_TicksFloorAtZero :
    0 < ({ base with dt := 1, st := 1 } : State).dt.toNat ∧ base.dt = 0 ∧ base.st = 0 := by decide

theorem test_witness_SetKeyWritesOneKey : 15 < 16 ∧ 15 ≤ 15 := by decide

theorem test_witness_SetPausedFollowsTable :
    ({ base with runState := .halted } : State).runState = .halted ∧ base.runState ≠ .halted := by decide

theorem test_witness_ParkedEndStays : (State.reset.load [0x12, 0x00]).2.ParkedEnd :=
  ⟨rfl, 0x1200, 0x200, rfl, by decide, rfl⟩

theorem test_witness_FlagChangesOnlyByItsWriters :
    exec (.ldImm 15 5) base = .next (base.advance.setReg 15 5) ∧ (base.advance.setReg 15 5).reg 15 ≠ base.reg 15 :=
  ⟨rfl, by decide⟩

theorem test_witness_OnlyRndReadsTheDraw :
    (∀ x nn, Instr.ldImm 0 5 ≠ .rnd x nn) ∧ exec (.ldImm 0 5) base = .next (base.advance.setReg 0 5) :=
  ⟨by simp, rfl⟩

theorem test_witness_DelayTimer_SoundTimer :
    (∀ x, Instr.ldVxDt 3 ≠ .ldDt x) ∧ (∀ x, Instr.ldVxDt 3 ≠ .ldSt x) ∧
    exec (.ldVxDt 3) base = .next (base.advance.setReg 3 0) := ⟨by simp, by simp, rfl⟩

theorem test_witness_RetPopsReturnAddress :
    ({ base with sp := 12 } : State).sp.val = 11 + 1 ∧ base.sp = 0 := by decide

theorem test_witness_CallPushesAndJumps :
    ({ base with sp := 11 } : State).sp.val < 12 ∧ ({ base with sp := 12 } : State).sp = 12 := by decide

theorem test_witness_ShiftsSetTheDroppedBit :
    base.reg 2 = (if base.cfg.shiftSource = .vy then base.reg 2 else base.reg 1) ∧
    (baseOf { Config.default with shiftSource := .vx }).cfg.shiftSource ≠ .vy := by decide

/-- The last three bytes of memory, and the first three after the font. -/
theorem test_witness_LdBStoresDigits :
    ({ sample.setReg 0 255 with i := 0xFFD } : State).Inv ∧
    Mapped sample.cfg 0xFFD 3 (fun k => 0xFFD + k) ∧ StoreAllowed sample.cfg 3 (fun k => 0xFFD + k) ∧
    Mapped sample.cfg 0x050 3 (fun k => 0x050 + k) ∧ StoreAllowed sample.cfg 3 (fun k => 0x050 + k) := by
  refine ⟨inv_of_sample 0xFFD 0 255, ?_, ?_, ?_, ?_⟩
  · intro k hk; interval_cases k <;> rfl
  · intro _ k _; simp only [fontEnd]; omega
  · intro k hk; interval_cases k <;> rfl
  · intro _ k _; simp only [fontEnd]; omega

/-- All sixteen registers at the end of memory, for FX55 and FX65. -/
theorem test_witness_StRegs_LdRegs :
    ({ sample.setReg 0 255 with i := 0xFF0 } : State).Inv ∧
    Mapped sample.cfg 0xFF0 ((15 : Reg).val + 1) (fun k => 0xFF0 + k) ∧
    StoreAllowed sample.cfg ((15 : Reg).val + 1) (fun k => 0xFF0 + k) := by
  refine ⟨inv_of_sample 0xFF0 0 255, ?_, ?_⟩
  · intro k hk
    have : k < 16 := hk
    interval_cases k <;> rfl
  · intro _ k _; simp only [fontEnd]; omega

theorem test_witness_StoreFaults :
    (∃ k < 3, mapAddr base.cfg (0xFFE + k) = none) ∧ (∃ k ≤ (0 : Reg).val, mapAddr base.cfg (0x1000 + k) = none) ∧
    base.cfg.fontWritePolicy = .fault ∧ Mapped base.cfg 0x04E 3 (fun k => 0x04E + k) ∧ (∃ k < 3, 0x04E + k < fontEnd) ∧
    Mapped base.cfg 0x04F ((0 : Reg).val + 1) (fun k => 0x04F + k) ∧ (∃ k ≤ (0 : Reg).val, 0x04F + k < fontEnd) := by
  refine ⟨⟨2, by decide, by decide⟩, ⟨0, by decide, by decide⟩, by decide, ?_, ⟨0, by decide, by decide⟩, ?_,
    ⟨0, by decide, by decide⟩⟩
  · intro k hk; interval_cases k <;> rfl
  · intro k hk
    have : k < 1 := hk
    interval_cases k; rfl

theorem test_witness_ReadFaults :
    (∃ k ≤ (1 : Reg).val, mapAddr base.cfg (0xFFF + k) = none) ∧
    (∃ k < (2 : Nibble).toNat, mapAddr base.cfg (0xFFF + k) = none) :=
  ⟨⟨1, by decide, by decide⟩, ⟨1, by decide, by decide⟩⟩

/-- One register dumped and loaded again at 0xFFF. -/
theorem test_witness_DumpThenLoadRoundTrips :
    ∃ s t u : State, ∃ w, s.Inv ∧ Mapped s.cfg s.i.toNat ((0 : Reg).val + 1) (fun k => 0xFFF + k) ∧
      StoreAllowed s.cfg ((0 : Reg).val + 1) (fun k => 0xFFF + k) ∧
      exec (.stRegs 0) s = .next t ∧ exec (.ldRegs 0) { t with i := s.i, v := w } = .next u := by
  refine ⟨{ sample.setReg 0 255 with i := 0xFFF }, _, _, sample.v, inv_of_sample 0xFFF 0 255, ?_, ?_, rfl, rfl⟩
  · intro k hk
    have : k < 1 := hk
    interval_cases k; rfl
  · intro _ k _; simp only [fontEnd]; omega

/-- A one-row sprite in the last byte of memory, and one of no rows. -/
theorem test_witness_DrawXorsWithWraparound :
    ({ sample.setReg 0 63 with i := 0xFFF } : State).Inv ∧
    Mapped sample.cfg 0xFFF (1 : Nibble).toNat (fun k => 0xFFF + k) ∧
    Mapped sample.cfg 0xFFF (0 : Nibble).toNat (fun k => 0xFFF + k) := by
  refine ⟨inv_of_sample 0xFFF 0 63, ?_, ?_⟩
  · intro k hk
    have : k < 1 := hk
    interval_cases k; rfl
  · intro k hk
    exact absurd hk (Nat.not_lt_zero k)

/-- A draw of the font's glyph 0 over a lit pixel collides, over a clear screen it does not. -/
theorem test_witness_DrawReportsCollision :
    Collides { sample with i := 0, fb := flipPixel sample.fb 0 0 } 0 1 1 (fun k => k) ∧
    ¬ Collides { sample with i := 0 } 0 1 1 (fun k => k) ∧ 8 ≤ sample.cfg.width ∧ 1 ≤ sample.cfg.height := by
  unfold Collides
  decide

theorem test_witness_DrawTwiceRestores :
    (0 : Reg) ≠ 15 ∧ (1 : Reg) ≠ 15 ∧ sample.Inv ∧
    ∃ t u, exec (.drw 0 1 5) sample = .next t ∧ exec (.drw 0 1 5) t = .next u :=
  ⟨by decide, by decide, test_witness_inv, _, _, rfl, rfl⟩

theorem test_witness_KeySkips :
    ((base.setReg 5 15).reg 5).toNat = (15 : Key).val ∧
    (({ Config.default with keyIndexPolicy := .mask } : Config).keyIndexPolicy = .mask ∧
      ((base.setReg 5 0x1F).reg 5).toNat % 16 = (15 : Key).val) ∧
    base.cfg.keyIndexPolicy = .fault ∧ 0xF < ((base.setReg 5 0x10).reg 5).toNat := by decide

theorem test_witness_KeyWaitAutomaton :
    (base.keyWait = .idle ∧ ∀ q : Key, base.keys[q] = false) ∧
    ((base.keys.set 3 true)[(3 : Key)] = true ∧ ∀ q : Key, q < 3 → (base.keys.set 3 true)[q] = false) ∧
    { base with keyWait := KeyWait.awaitingRelease 15 }.keyWait = .awaitingRelease 15 ∧
    (base.keys.set 15 true)[(15 : Key)] = true ∧ base.keys[(15 : Key)] = false := by decide

/-- For the three frames: an instruction of each, with what it may touch, that answers a next state. -/
theorem test_witness_Frames :
    touchedByAlu (.ldImm 0 5) = some { regs := (· = 0) } ∧ exec (.ldImm 0 5) base = .next (base.advance.setReg 0 5) ∧
    touchedByControl .ret = some { stack := True, fault := True } ∧
    exec .ret base = .next (base.takeFault .stackUnderflow) ∧
    touchedByMemory base .cls = some { pixels := True } ∧
    exec .cls base = .next { base.advance with fb := clearFb base.cfg } :=
  ⟨rfl, rfl, rfl, rfl, rfl, rfl⟩

end Sys2Proof.Tests
end

section
/-! PROOFS. The scope of the model (00_scope.md): every step keeps the machine's invariant (O14), and only CXNN depends
on the random source (O27). -/

namespace Sys2Proof.Machine

/-! ### The four cases of FX0A (R363) -/

theorem execLdK_of_no_press {s : State} (x : Reg) (hw : s.keyWait = .idle) (hk : firstPressed s.keys = none) :
    execLdK x s = .next s.advance.block := by
  simp only [execLdK, hw, hk]

theorem execLdK_of_press {s : State} {k : Key} (x : Reg) (hw : s.keyWait = .idle)
    (hk : firstPressed s.keys = some k) :
    execLdK x s = .next { s.advance.block with keyWait := .awaitingRelease k } := by
  simp only [execLdK, hw, hk]

theorem execLdK_of_held {s : State} {k : Key} (x : Reg) (hw : s.keyWait = .awaitingRelease k)
    (hk : s.keys[k] = true) : execLdK x s = .next s.advance.block := by
  simp only [execLdK, hw, hk, if_true]

theorem execLdK_of_release {s : State} {k : Key} (x : Reg) (hw : s.keyWait = .awaitingRelease k)
    (hk : s.keys[k] = false) :
    execLdK x s = .next { s.advance.setReg x (BitVec.ofNat 8 k.val) with keyWait := .idle } := by
  simp only [execLdK, hw, hk, Bool.false_eq_true, if_false]

/-! ### A step outside Running -/

/-- Paused or Halted, a step changes nothing (R204). -/
theorem step_of_not_running {s : State} (h : s.runState ≠ .running) : step s = .next s := by
  unfold step
  split
  · next hr => exact absurd hr h
  · rfl
  · rfl

/-! ### What keeps the invariant -/

/-- The invariant reads five fields only, so a state that agrees on them meets it too. -/
theorem State.Inv.congr {s t : State} (h : s.Inv) (hcfg : t.cfg = s.cfg) (hmem : t.mem = s.mem) (hfb : t.fb = s.fb)
    (hrun : t.runState = s.runState) (hcause : t.faultCause = s.faultCause) : t.Inv := by
  obtain ⟨cfg, mem, grid, cause⟩ := h
  exact ⟨by rwa [hcfg], by rwa [hcfg, hmem], by rwa [State.GridWf, hcfg, hfb], by rwa [hrun, hcause]⟩

/-- Fault entry halts the machine and records a cause together (R405). -/
theorem State.Inv.takeFault {s : State} (h : s.Inv) (c : FaultCause) : (s.takeFault c).Inv :=
  ⟨h.cfg, h.mem, h.grid, by simp⟩

theorem State.Inv.advance {s : State} (h : s.Inv) : s.advance.Inv := h.congr rfl rfl rfl rfl rfl

theorem State.Inv.setReg {s : State} (h : s.Inv) (x : Reg) (b : Byte) : (s.setReg x b).Inv :=
  h.congr rfl rfl rfl rfl rfl

theorem State.Inv.setRegFlag {s : State} (h : s.Inv) (x : Reg) (b f : Byte) : (s.setRegFlag x b f).Inv :=
  (h.setReg x b).setReg regF f

theorem State.Inv.loadRegs {s : State} (h : s.Inv) (bytes : List Byte) : (s.loadRegs bytes).Inv :=
  h.congr (by simp) (by simp) (by simp) (by simp) (by simp)

theorem State.Inv.skipIf {s : State} (h : s.Inv) (cond : Bool) : (s.skipIf cond).Inv :=
  h.congr (by simp) (by simp) (by simp) (by simp) (by simp)

theorem State.Inv.bumpIndex {s : State} (h : s.Inv) (x : Reg) : (s.bumpIndex x).Inv :=
  h.congr (by simp) (by simp) (by simp) (by simp) (by simp)

/-- A framebuffer may be replaced by any other grid of H rows of W pixels (R42). -/
theorem State.Inv.withFb {s : State} (h : s.Inv) {fb : List (List Bool)} (hfb : GridOf s.cfg fb) :
    ({ s with fb := fb } : State).Inv :=
  ⟨h.cfg, h.mem, hfb, h.cause⟩

/-- A sprite is drawn on the grid (R42, R322). -/
theorem State.gridOf_drawSprite {s : State} (h : s.GridWf) (x y : Reg) (bytes : List Byte) :
    GridOf s.cfg (s.drawSprite x y bytes).1 :=
  gridOf_blit h _ false

theorem State.Inv.popPc {s t : State} (h : s.Inv) (ht : s.popPc = .ok t) : t.Inv := by
  unfold State.popPc at ht
  split at ht
  · cases ht; exact h.congr rfl rfl rfl rfl rfl
  · cases ht

theorem State.Inv.push {s t : State} {w : Word} (h : s.Inv) (ht : s.push w = .ok t) : t.Inv := by
  unfold State.push at ht
  split at ht
  · cases ht; exact h.congr rfl rfl rfl rfl rfl
  · cases ht

/-- A program's store of a block leaves memory in canonical form (R80, R91). -/
theorem State.Inv.writeBlock {s t : State} {base : Nat} {bytes : List Byte} (h : s.Inv)
    (ht : s.writeBlock base bytes = .ok t) : t.Inv := by
  obtain ⟨as, ha, -, hw⟩ | ⟨-, hw⟩ | ⟨as, -, -, hw⟩ := s.writeBlock_cases base bytes <;> rw [hw] at ht <;> cases ht
  exact ⟨h.cfg, Memory.wf_stores h.mem ha bytes, h.grid, h.cause⟩

/-! ### What keeps the invariant in an instruction and in a step -/

/-- An instruction that ends through `complete` keeps the invariant if its own next state meets it. -/
theorem State.Inv.of_complete {s t : State} {e : Except FaultCause State} (h : s.Inv) (ht : complete s e = .next t)
    (hok : ∀ u, e = .ok u → u.Inv) : t.Inv := by
  obtain hu | ⟨c, -, rfl⟩ := complete_eq_next ht
  · exact hok t hu
  · exact h.takeFault c

theorem State.Inv.of_complete_map {α : Type} {s t : State} {e : Except FaultCause α} {f : α → State} (h : s.Inv)
    (ht : complete s (e.map f) = .next t) (hok : ∀ a, e = .ok a → (f a).Inv) : t.Inv := by
  obtain ⟨a, ha, rfl⟩ | ⟨c, -, rfl⟩ := complete_map_eq_next ht
  · exact hok a ha
  · exact h.takeFault c

/-- FX0A changes at most pc, VX and its wait state (R363). -/
theorem State.Inv.execLdK {s t : State} {x : Reg} (h : s.Inv) (ht : execLdK x s = .next t) : t.Inv := by
  unfold Machine.execLdK at ht
  split at ht <;> split at ht <;> cases ht <;> exact h.congr rfl rfl rfl rfl rfl

/-- Every instruction keeps the invariant. -/
theorem exec_keeps_inv {i : Instr} {s t : State} (h : s.Inv) (ht : exec i s = .next t) : t.Inv := by
  cases i with
  | cls => cases ht; exact h.advance.withFb (gridOf_clearFb s.cfg)
  | drw x y n =>
    exact h.of_complete_map ht fun bytes _ => (h.advance.withFb (State.gridOf_drawSprite h.grid x y bytes)).setReg _ _
  | ret => exact h.of_complete ht fun _ => h.advance.popPc
  | call nnn => exact h.of_complete_map ht fun _ hu => (h.advance.push hu).congr rfl rfl rfl rfl rfl
  | ldB x => exact h.of_complete ht fun _ => h.advance.writeBlock
  | stRegs x => exact h.of_complete_map ht fun _ hu => (h.advance.writeBlock hu).bumpIndex x
  | ldRegs x => exact h.of_complete_map ht fun bytes _ => (h.advance.loadRegs bytes).bumpIndex x
  | skp x | sknp x => exact h.of_complete_map ht fun _ _ => h.advance.skipIf _
  | seImm x nn | sneImm x nn | seReg x nn | sneReg x nn => cases ht; exact h.advance.skipIf _
  | ldK x => exact h.execLdK ht
  | ldImm x y | addImm x y | ldReg x y | or x y | and x y | xor x y => cases ht; exact h.advance.setReg x _
  | ldVxDt x => cases ht; exact h.advance.setReg x _
  | addReg x y | sub x y | shr x y | subn x y | shl x y => cases ht; exact h.advance.setRegFlag x _ _
  | rnd x nn => cases ht; exact h.congr rfl rfl rfl rfl rfl
  | jp nnn | jpV0 nnn | ldI nnn => cases ht; exact h.congr rfl rfl rfl rfl rfl
  | ldDt x | ldSt x | addI x | ldF x => cases ht; exact h.congr rfl rfl rfl rfl rfl

/-- A step keeps the invariant: it does nothing, faults in the fetch, advances over an unassigned word, or executes an
instruction. -/
theorem step_keeps_inv {s t : State} (h : s.Inv) (ht : step s = .next t) : t.Inv := by
  by_cases hr : s.runState = .running
  · cases hf : s.fetch with
    | error c => rw [step_of_fetch_error hr hf] at ht; cases ht; exact h.takeFault c
    | ok op =>
      cases hd : decode s.cfg op with
      | instr i => rw [step_of_instr hr hf hd] at ht; exact exec_keeps_inv h ht
      | unassigned op' => rw [step_of_unassigned hr hf hd] at ht; cases ht; exact h.advance
  · rw [step_of_not_running hr] at ht; cases ht; exact h

/-- Settles O14, by the cases of a step and, in Running, of the instruction it executes. -/
theorem stepKeepsInv : Obligations.StepKeepsInv := by
  unfold Obligations.StepKeepsInv
  intro s t
  exact step_keeps_inv

/-! ### What ST and the draw count do not influence -/

/-- `s` with ST and the count of draws put through `g` and `m`: the two fields that no instruction but FX18 and CXNN
reads or writes. -/
def State.mapUnread (g : Byte → Byte) (m : Nat → Nat) (s : State) : State :=
  { s with st := g s.st, draws := m s.draws }

/-- A result with `f` applied to its next state. -/
def mapNext (f : State → State) : Result → Result
  | .next s    => .next (f s)
  | .refused r => .refused r

section
variable (g : Byte → Byte) (m : Nat → Nat) (s : State)

theorem State.skipIf_mapUnread (cond : Bool) :
    (s.mapUnread g m).skipIf cond = (s.skipIf cond).mapUnread g m := by
  cases cond <;> rfl

theorem State.loadRegs_mapUnread (bytes : List Byte) :
    (s.mapUnread g m).loadRegs bytes = (s.loadRegs bytes).mapUnread g m := by
  simp only [State.loadRegs, State.mapUnread]

theorem State.bumpIndex_mapUnread (x : Reg) :
    (s.mapUnread g m).bumpIndex x = (s.bumpIndex x).mapUnread g m := by
  show (if s.cfg.ldstIncrementI then _ else _) = State.mapUnread g m (if s.cfg.ldstIncrementI then _ else _)
  split <;> rfl

theorem State.popPc_mapUnread : (s.mapUnread g m).popPc = s.popPc.map (State.mapUnread g m) := by
  by_cases h : 0 < s.sp.val
  · simp only [State.popPc, State.mapUnread, h, ↓reduceDIte, Except.map]
  · simp only [State.popPc, State.mapUnread, h, ↓reduceDIte, Except.map]

theorem State.push_mapUnread (w : Word) :
    (s.mapUnread g m).push w = (s.push w).map (State.mapUnread g m) := by
  by_cases h : s.sp.val < stackDepth
  · rw [State.push_of_lt s w h, State.push_of_lt (s.mapUnread g m) w h]; rfl
  · rw [State.push_of_full s w h, State.push_of_full (s.mapUnread g m) w h]; rfl

theorem State.writeBlock_mapUnread (base : Nat) (bytes : List Byte) :
    (s.mapUnread g m).writeBlock base bytes = (s.writeBlock base bytes).map (State.mapUnread g m) := by
  obtain ⟨as, ha, hf, hw⟩ | ⟨ha, hw⟩ | ⟨as, ha, hf, hw⟩ := s.writeBlock_cases base bytes
  · rw [hw]; simp [State.writeBlock, State.mapUnread, ha, hf, Except.map]
  · rw [hw]; simp [State.writeBlock, State.mapUnread, ha, Except.map]
  · rw [hw]; simp [State.writeBlock, State.mapUnread, ha, hf, Except.map]

theorem execLdK_mapUnread (x : Reg) :
    execLdK x (s.mapUnread g m) = mapNext (State.mapUnread g m) (execLdK x s) := by
  cases hw : s.keyWait with
  | idle =>
    cases hk : firstPressed s.keys with
    | none => rw [execLdK_of_no_press x hw hk, execLdK_of_no_press (s := s.mapUnread g m) x hw hk]; rfl
    | some k => rw [execLdK_of_press x hw hk, execLdK_of_press (s := s.mapUnread g m) x hw hk]; rfl
  | awaitingRelease k =>
    cases hk : s.keys[k] with
    | true => rw [execLdK_of_held x hw hk, execLdK_of_held (s := s.mapUnread g m) x hw hk]; rfl
    | false => rw [execLdK_of_release x hw hk, execLdK_of_release (s := s.mapUnread g m) x hw hk]; rfl

variable {g m s}

/-- Where the checks of an instruction answer the same but for `mapUnread`, its end is the same but for it. -/
theorem complete_mapUnread {e e' : Except FaultCause State} (he : e' = e.map (State.mapUnread g m)) :
    complete (s.mapUnread g m) e' = mapNext (State.mapUnread g m) (complete s e) := by
  subst he
  cases e <;> rfl

theorem complete_map_mapUnread {α : Type} {φ : α → α} {e e' : Except FaultCause α} {f f' : α → State}
    (he : e' = e.map φ) (hf : ∀ a, f' (φ a) = (f a).mapUnread g m) :
    complete (s.mapUnread g m) (e'.map f') = mapNext (State.mapUnread g m) (complete s (e.map f)) := by
  subst he
  cases e with
  | ok a => exact congrArg Host.Outcome.next (hf a)
  | error c => rfl

theorem complete_map_mapUnread_of_same {α : Type} (e : Except FaultCause α) {f f' : α → State}
    (hf : ∀ a, f' a = (f a).mapUnread g m) :
    complete (s.mapUnread g m) (e.map f') = mapNext (State.mapUnread g m) (complete s (e.map f)) :=
  complete_map_mapUnread (φ := id) (congrFun Except.map_id e).symm hf

/-- No instruction but FX18 acts on ST and none but CXNN on the count of draws: whatever the two hold, every other one
does the same (R10, R253, R365). -/
theorem exec_mapUnread {i : Instr} (hst : ∀ x, i = .ldSt x → g = id) (hrnd : ∀ x nn, i = .rnd x nn → m = id) :
    exec i (s.mapUnread g m) = mapNext (State.mapUnread g m) (exec i s) := by
  cases i with
  | ldSt x => obtain rfl := hst x rfl; rfl
  | rnd x nn => obtain rfl := hrnd x nn rfl; rfl
  | ret => exact complete_mapUnread (s.advance.popPc_mapUnread g m)
  | call nnn => exact complete_map_mapUnread (s.advance.push_mapUnread g m s.advance.pc) fun _ => rfl
  | ldB x => exact complete_mapUnread (s.advance.writeBlock_mapUnread g m s.indexBase (decimalDigits (s.reg x)))
  | stRegs x =>
    exact complete_map_mapUnread (s.advance.writeBlock_mapUnread g m s.indexBase (s.regsUpTo x))
      fun u => u.bumpIndex_mapUnread g m x
  | ldRegs x =>
    exact complete_map_mapUnread_of_same (s.readBlock s.indexBase (x.val + 1))
      fun bytes => (congrArg (State.bumpIndex · x) (s.advance.loadRegs_mapUnread g m bytes)).trans
        ((s.advance.loadRegs bytes).bumpIndex_mapUnread g m x)
  | drw x y n => exact complete_map_mapUnread_of_same (s.readBlock s.indexBase n.toNat) fun _ => rfl
  | skp x | sknp x =>
    exact complete_map_mapUnread_of_same (keyIdx s.cfg (s.reg x)) fun _ => s.advance.skipIf_mapUnread g m _
  | seImm x y | sneImm x y | seReg x y | sneReg x y =>
    exact congrArg Host.Outcome.next (s.advance.skipIf_mapUnread g m _)
  | ldK x => exact execLdK_mapUnread g m s x
  | cls | jp nnn | jpV0 nnn | ldI nnn => rfl
  | ldImm x y | addImm x y | ldReg x y | or x y | and x y | xor x y => rfl
  | addReg x y | sub x y | shr x y | subn x y | shl x y => rfl
  | ldVxDt x | ldDt x | addI x | ldF x => rfl

end

/-- Settles O27: setting the count of draws is a `mapUnread` that leaves ST alone. -/
theorem onlyRndReadsTheDraw : Obligations.OnlyRndReadsTheDraw := by
  unfold Obligations.OnlyRndReadsTheDraw
  intro i s t n hi ht
  have h := exec_mapUnread (g := id) (m := fun _ => n) (s := s) (fun _ _ => rfl) fun x nn e => absurd e (hi x nn)
  rw [ht] at h
  exact h

end Sys2Proof.Machine
end

section
/-! PROOFS. The state of the core (10_state.md): the host operations keep the machine's invariant (O16), the timers
count down to 0 (O22), VF changes by its writers only (O26), and what the register instructions leave unchanged (O58). -/

namespace Sys2Proof.Machine

open Sys2Proof.Claims

/-! ### The host operations and the invariant -/

/-- The reset values meet the invariant under every legal configuration (R461). -/
theorem State.inv_resetWith {c : Config} (h : c.WellFormed) : (State.resetWith c).Inv :=
  ⟨h, Memory.wf_nil c.font, gridOf_clearFb c, by simp [State.resetWith]⟩

theorem State.Inv.hostReset {s : State} (h : s.Inv) : s.hostReset.Inv :=
  (State.inv_resetWith h.cfg).congr rfl rfl rfl rfl rfl

/-- A program that is not too large lies within memory (R471). -/
theorem entryPoint_zip_lt {prog : List Byte} (h : prog.length ≤ maxProgram) :
    ∀ w ∈ (List.range' entryPoint prog.length).zip prog, w.1 < memSize := by
  intro w hw
  have hr := List.mem_range'_1.mp (List.of_mem_zip hw).1
  simp only [entryPoint, maxProgram, memSize] at *
  omega

/-- A load stores the program in canonical form, or is rejected and changes nothing (R470, R471). -/
theorem State.Inv.load {s : State} (h : s.Inv) (prog : List Byte) : (s.load prog).2.Inv := by
  unfold State.load
  split
  · next hl => exact ⟨h.cfg, Memory.wf_writeAll _ _ h.mem (entryPoint_zip_lt hl), h.grid, h.cause⟩
  · exact h

theorem State.Inv.tickTimers {s : State} (h : s.Inv) : s.tickTimers.Inv := h.congr rfl rfl rfl rfl rfl

theorem State.Inv.setKey {s t : State} {k : Nat} {b : Bool} (h : s.Inv) (ht : s.setKey k b = .next t) : t.Inv := by
  unfold State.setKey at ht
  split at ht
  · cases ht; exact h.congr rfl rfl rfl rfl rfl
  · cases ht

/-- set_paused neither enters nor leaves Halted (R435). -/
theorem RunState.setPaused_eq_halted_iff (b : Bool) (r : RunState) : r.setPaused b = .halted ↔ r = .halted := by
  cases r <;> cases b <;> decide

theorem State.Inv.setPaused {s : State} (h : s.Inv) (b : Bool) : (s.setPaused b).Inv :=
  ⟨h.cfg, h.mem, h.grid, (RunState.setPaused_eq_halted_iff b s.runState).trans h.cause⟩

/-- Every host operation keeps the invariant. -/
theorem State.Inv.apply {s t : State} {op : HostOp} (h : s.Inv) (ht : s.apply op = .next t) : t.Inv := by
  cases op with
  | reset => cases ht; exact h.hostReset
  | load prog => cases ht; exact h.load prog
  | step => exact step_keeps_inv h ht
  | tickTimers => cases ht; exact h.tickTimers
  | setKey k b => exact h.setKey ht
  | setPaused b => cases ht; exact h.setPaused b

/-- A list of host operations answers a next state through that of its first operation (R61). -/
theorem State.applyAll_cons_eq_next {s t : State} {op : HostOp} {ops : List HostOp}
    (h : s.applyAll (op :: ops) = .next t) : ∃ u, s.apply op = .next u ∧ u.applyAll ops = .next t := by
  unfold State.applyAll at h
  split at h
  · next u hu => exact ⟨u, hu, h⟩
  · cases h
  · cases h

theorem State.Inv.applyAll {s t : State} {ops : List HostOp} (h : s.Inv) (ht : s.applyAll ops = .next t) : t.Inv := by
  induction ops generalizing s with
  | nil => cases ht; exact h
  | cons op ops ih =>
    obtain ⟨u, hu, hrest⟩ := State.applyAll_cons_eq_next ht
    exact ih (h.apply hu) hrest

/-- Settles O16, by induction on the list: each host operation keeps the invariant. -/
theorem hostOperationsKeepInv : Obligations.HostOperationsKeepInv := by
  unfold Obligations.HostOperationsKeepInv
  intro s t ops
  exact State.Inv.applyAll

/-! ### The timers -/

/-- A tick takes one from a timer, floored at 0 (R420). -/
theorem toNat_tickByte (b : Byte) : (tickByte b).toNat = b.toNat - 1 := by
  unfold tickByte
  split
  · next h => subst h; rfl
  · next h => bv_omega

theorem tickByte_of_eq_zero {b : Byte} (h : b = 0) : tickByte b = 0 := if_pos h

@[simp] theorem State.toNat_tickTimers_dt (s : State) : s.tickTimers.dt.toNat = s.dt.toNat - 1 := toNat_tickByte s.dt
@[simp] theorem State.toNat_tickTimers_st (s : State) : s.tickTimers.st.toNat = s.st.toNat - 1 := toNat_tickByte s.st

/-- After `n` ticks both timers are less by `n`, floored at 0. -/
theorem State.toNat_iterate_tickTimers (s : State) (n : Nat) :
    (State.tickTimers^[n] s).dt.toNat = s.dt.toNat - n ∧ (State.tickTimers^[n] s).st.toNat = s.st.toNat - n := by
  induction n with
  | zero => exact ⟨rfl, rfl⟩
  | succ n ih =>
    obtain ⟨hdt, hst⟩ := ih
    rw [Function.iterate_succ_apply', State.toNat_tickTimers_dt, State.toNat_tickTimers_st, hdt, hst]
    exact ⟨Nat.sub_sub _ _ _, Nat.sub_sub _ _ _⟩

/-- Settles O22, by what one tick makes of a timer and by induction on the number of ticks. -/
theorem ticksFloorAtZero : Obligations.TicksFloorAtZero := by
  unfold Obligations.TicksFloorAtZero
  exact ⟨fun s => ⟨rfl, rfl, fun _ => s.toNat_tickTimers_dt, tickByte_of_eq_zero,
    fun _ => s.toNat_tickTimers_st, tickByte_of_eq_zero⟩, State.toNat_iterate_tickTimers⟩

/-! ### What the register instructions leave unchanged -/

/-- An advance and a write of VX touch VX alone. -/
theorem Frame.advance_setReg (s : State) (x : Reg) (b : Byte) :
    Frame { regs := (· = x) } s (s.advance.setReg x b) where
  regs _ hr := s.advance.reg_setReg_of_ne b hr
  bytes _ _ := by simp
  index _ := rfl
  stack _ := ⟨rfl, rfl⟩
  delay _ := rfl
  sound _ := rfl
  pixels _ := rfl
  wait _ := rfl
  fault _ := ⟨rfl, rfl⟩
  draws _ := rfl
  keys := rfl
  cfg := rfl

/-- An advance and a write of VX and then of the flag touch VX and VF alone (R13). -/
theorem Frame.advance_setRegFlag (s : State) (x : Reg) (b f : Byte) :
    Frame { regs := fun r => r = x ∨ r = 15 } s (s.advance.setRegFlag x b f) :=
  { Frame.advance_setReg s x b with
    regs := fun r hr => by
      obtain ⟨hx, hF⟩ := not_or.mp hr
      simp [State.reg_setRegFlag, hx, hF]
    bytes := fun _ _ => by simp }

/-- CXNN touches VX and the count of draws alone (R253). -/
theorem Frame.rnd (s : State) (x : Reg) (nn : Byte) (n : Nat) :
    Frame { regs := (· = x), draws := True } s { rndWith (Config.rnd s.draws) x nn s with draws := n } :=
  { Frame.advance_setReg s x (Config.rnd s.draws &&& nn) with draws := fun h => (h trivial).elim }

/-- Settles O58: each register instruction is an advance and a write of VX, of VX and the flag, or CXNN's. -/
theorem aluFrame : Obligations.AluFrame := by
  unfold Obligations.AluFrame
  intro i s t w hw ht
  cases i with
  | ldImm x y | addImm x y | ldReg x y | or x y | and x y | xor x y =>
    cases hw; cases ht; exact Frame.advance_setReg s x _
  | ldVxDt x => cases hw; cases ht; exact Frame.advance_setReg s x _
  | addReg x y | sub x y | shr x y | subn x y | shl x y =>
    cases hw; cases ht; exact Frame.advance_setRegFlag s x _ _
  | rnd x nn => cases hw; cases ht; exact Frame.rnd s x nn _
  | _ => cases hw

/-! ### What leaves VF unchanged -/

theorem State.popPc_v {s t : State} (h : s.popPc = .ok t) : t.v = s.v := by
  unfold State.popPc at h
  split at h <;> cases h
  rfl

theorem State.push_v {s t : State} {w : Word} (h : s.push w = .ok t) : t.v = s.v := by
  unfold State.push at h
  split at h <;> cases h
  rfl

theorem State.writeBlock_v {s t : State} {base : Nat} {bytes : List Byte} (h : s.writeBlock base bytes = .ok t) :
    t.v = s.v := by
  obtain ⟨as, -, -, hw⟩ | ⟨-, hw⟩ | ⟨as, -, -, hw⟩ := s.writeBlock_cases base bytes <;> rw [hw] at h <;> cases h
  rfl

/-- Reading a block answers as many bytes as were asked for. -/
theorem State.length_of_readBlock {s : State} {base n : Nat} {bytes : List Byte} (h : s.readBlock base n = .ok bytes) :
    bytes.length = n := by
  obtain ⟨as, ha, hb⟩ | ⟨-, hb⟩ := s.readBlock_cases base n <;> rw [hb] at h <;> cases h
  rw [List.length_map]
  exact ((mapBlock_eq_some_iff s.cfg base n as).mp ha).1

/-- Loading registers leaves those beyond the bytes given. -/
theorem State.reg_loadRegs_of_length_le (s : State) {bytes : List Byte} {r : Reg} (h : bytes.length ≤ r.val) :
    (s.loadRegs bytes).reg r = s.reg r := by
  rw [State.reg_loadRegs, List.getElem?_eq_none h, Option.getD_none]

/-- An instruction that ends through `complete` keeps a register if its own next state does: fault entry keeps all. -/
theorem reg_of_complete {s t : State} {r : Reg} {e : Except FaultCause State} (ht : complete s e = .next t)
    (hok : ∀ u, e = .ok u → u.reg r = s.reg r) : t.reg r = s.reg r := by
  obtain hu | ⟨c, -, rfl⟩ := complete_eq_next ht
  · exact hok t hu
  · exact s.reg_takeFault c r

theorem reg_of_complete_map {α : Type} {s t : State} {r : Reg} {e : Except FaultCause α} {f : α → State}
    (ht : complete s (e.map f) = .next t) (hok : ∀ a, e = .ok a → (f a).reg r = s.reg r) : t.reg r = s.reg r := by
  obtain ⟨a, ha, rfl⟩ | ⟨c, -, rfl⟩ := complete_map_eq_next ht
  · exact hok a ha
  · exact s.reg_takeFault c r

/-- FX0A writes no register but VX (R363). -/
theorem execLdK_reg_of_ne {s t : State} {x r : Reg} (hr : r ≠ x) (ht : execLdK x s = .next t) : t.reg r = s.reg r := by
  cases hw : s.keyWait with
  | idle =>
    cases hk : firstPressed s.keys with
    | none => rw [execLdK_of_no_press x hw hk] at ht; cases ht; rfl
    | some k => rw [execLdK_of_press x hw hk] at ht; cases ht; rfl
  | awaitingRelease k =>
    cases hk : s.keys[k] with
    | true => rw [execLdK_of_held x hw hk] at ht; cases ht; rfl
    | false => rw [execLdK_of_release x hw hk] at ht; cases ht; exact s.advance.reg_setReg_of_ne _ hr

/-- FX65 writes no register beyond VX (R286). -/
theorem execLdRegs_reg_of_lt {s t : State} {x r : Reg} (hr : x < r) (ht : execLdRegs x s = .next t) :
    t.reg r = s.reg r :=
  reg_of_complete_map ht fun bytes hb => by
    have hl : bytes.length ≤ r.val := (State.length_of_readBlock hb).trans_le hr
    rw [State.reg_bumpIndex, State.reg_loadRegs_of_length_le _ hl, State.reg_advance]

/-- An instruction that writes no flag and does not name VF as its destination leaves VF alone (R32). -/
theorem exec_keeps_vf {i : Instr} {s t : State} (ht : exec i s = .next t) (hf : writesFlag i ≠ true)
    (hd : destination i ≠ some regF) : t.reg regF = s.reg regF := by
  have ne_dest {x : Reg} (hx : destination i = some x) : regF ≠ x := fun e => hd (hx.trans (congrArg some e.symm))
  cases i with
  | addReg x y | sub x y | shr x y | subn x y | shl x y => exact absurd rfl hf
  | drw x y n => exact absurd rfl hf
  | ldImm x y | addImm x y | ldReg x y | or x y | and x y | xor x y =>
    cases ht; exact s.advance.reg_setReg_of_ne _ (ne_dest rfl)
  | ldVxDt x => cases ht; exact s.advance.reg_setReg_of_ne _ (ne_dest rfl)
  | rnd x nn => cases ht; exact s.advance.reg_setReg_of_ne _ (ne_dest rfl)
  | ldK x => exact execLdK_reg_of_ne (ne_dest rfl) ht
  | ldRegs x => exact execLdRegs_reg_of_lt (lt_of_le_of_ne (Fin.le_last x) (ne_dest rfl).symm) ht
  | ret => exact reg_of_complete ht fun _ hu => State.reg_congr (State.popPc_v hu) regF
  | call nnn => exact reg_of_complete_map ht fun _ hu => State.reg_congr (State.push_v hu) regF
  | ldB x => exact reg_of_complete ht fun _ hu => State.reg_congr (State.writeBlock_v hu) regF
  | stRegs x =>
    exact reg_of_complete_map ht fun u hu =>
      (u.reg_bumpIndex x regF).trans (State.reg_congr (State.writeBlock_v hu) regF)
  | skp x | sknp x => exact reg_of_complete_map ht fun _ _ => s.advance.reg_skipIf _ regF
  | seImm x y | sneImm x y | seReg x y | sneReg x y => cases ht; exact s.advance.reg_skipIf _ regF
  | cls | jp nnn | jpV0 nnn | ldI nnn => cases ht; rfl
  | ldDt x | ldSt x | addI x | ldF x => cases ht; rfl

/-- Settles O26: an instruction that is neither a flag writer nor one with destination VF leaves VF alone. -/
theorem flagChangesOnlyByItsWriters : Obligations.FlagChangesOnlyByItsWriters := by
  unfold Obligations.FlagChangesOnlyByItsWriters
  intro i s t ht hne
  by_contra h
  obtain ⟨hf, hd⟩ := not_or.mp h
  exact hne (exec_keeps_vf ht hf hd)

end Sys2Proof.Machine
end

section
/-! PROOFS. Memory (20_memory.md): how an instruction word lies in memory (O7) and which addresses exist (O10), the
canonical form as the machine's representation of the array of bytes (O18), what the index, memory and display
instructions leave unchanged (O60), and the font under a policy that protects it (O17). -/

namespace Sys2Proof.Machine

open Sys2Proof.Claims

/-! ### Words and addresses -/

theorem extractHigh_wordOfBytes (hi lo : Byte) : (wordOfBytes hi lo).extractLsb' 8 8 = hi := by
  unfold wordOfBytes
  ext k hk; interval_cases k <;> simp

theorem extractLow_wordOfBytes (hi lo : Byte) : (wordOfBytes hi lo).extractLsb' 0 8 = lo := by
  unfold wordOfBytes
  ext k hk; interval_cases k <;> simp

theorem toNat_wordOfBytes (hi lo : Byte) : (wordOfBytes hi lo).toNat = hi.toNat * 256 + lo.toNat := by
  have hhi := hi.isLt
  have hshift : hi.toNat <<< 8 = hi.toNat * 256 := Nat.shiftLeft_eq _ _
  have hor : hi.toNat <<< 8 ||| lo.toNat = hi.toNat * 256 + lo.toNat := by
    rw [← Nat.shiftLeft_add_eq_or_of_lt lo.isLt, hshift]
  have hfit : hi.toNat <<< 8 % 2 ^ 16 = hi.toNat <<< 8 := Nat.mod_eq_of_lt (by omega)
  rw [wordOfBytes, BitVec.toNat_or, BitVec.toNat_shiftLeft, BitVec.toNat_setWidth_of_le (by decide),
    BitVec.toNat_setWidth_of_le (by decide), hfit, hor]

/-- The fetch answers the word of the bytes at pc and pc + 1 where both addresses exist (R92, R201). -/
theorem State.fetch_of_mapped {s : State} {a b : Nat} (ha : mapAddr s.cfg s.pc.toNat = some a)
    (hb : mapAddr s.cfg (s.pc.toNat + 1) = some b) : s.fetch = .ok (wordOfBytes (s.byteAt a) (s.byteAt b)) := by
  simp only [State.fetch, ha, hb]

/-- Settles O7, by the two bytes and the number of a combined word. -/
theorem fetchIsBigEndian : Obligations.FetchIsBigEndian := by
  unfold Obligations.FetchIsBigEndian
  intro s a b ha hb
  exact ⟨_, State.fetch_of_mapped ha hb, toNat_wordOfBytes _ _, extractHigh_wordOfBytes _ _,
    extractLow_wordOfBytes _ _⟩

/-- Settles O10, by the model's laws of `mapAddr` under each policy. -/
theorem addressPolicyMapsAddresses : Obligations.AddressPolicyMapsAddresses := by
  unfold Obligations.AddressPolicyMapsAddresses
  exact fun c a => ⟨mapAddr_fault_of_le, mapAddr_fault_of_gt, mapAddr_wrap a⟩

/-! ### The cells of a canonical memory -/

theorem Memory.read_of_mem (font : Vector Byte 80) {m : List Host.Cell} {a : Nat} {b : Byte} (hs : Memory.sorted m)
    (h : (a, b) ∈ m) : Memory.read font m a = b := by
  induction m with
  | nil => cases h
  | cons x m ih =>
    obtain ⟨k, d⟩ := x
    obtain ⟨hk, hs⟩ := List.pairwise_cons.mp hs
    rcases List.mem_cons.mp h with he | h
    · cases he; exact Memory.read_cons_self font a b m
    · rw [Memory.read_cons_of_ne font d m (hk (a, b) h).ne]
      exact ih hs h

/-- A canonical memory lists exactly the bytes it reads that differ from the reset contents (R461). -/
theorem Memory.mem_iff_read {font : Vector Byte 80} {m : List Host.Cell} (hm : Memory.wf font m) (a : Nat) (b : Byte) :
    (a, b) ∈ m ↔ Memory.read font m a = b ∧ b ≠ Memory.unlisted font a := by
  obtain ⟨hs, hcell⟩ := hm
  constructor
  · exact fun h => ⟨Memory.read_of_mem font hs h, (hcell (a, b) h).2⟩
  · rintro ⟨rfl, hne⟩
    by_contra hno
    refine hne (Memory.read_of_not_mem font m a fun x hx he => hno ?_)
    subst he
    rwa [Memory.read_of_mem font hs hx]

/-- Two sorted memories with the same cells are the same list. -/
theorem Memory.eq_of_mem_iff {m m' : List Host.Cell} (hm : Memory.sorted m) (hm' : Memory.sorted m')
    (h : ∀ x, x ∈ m ↔ x ∈ m') : m = m' := by
  have : Std.Irrefl fun x y : Host.Cell => x.1 < y.1 := ⟨fun x => lt_irrefl x.1⟩
  have : Std.Antisymm fun x y : Host.Cell => x.1 < y.1 := ⟨fun _ _ hxy hyx => absurd hxy hyx.asymm⟩
  exact List.Pairwise.eq_of_mem_iff hm hm' h

/-- Settles O18: memories that read alike have the same cells, and their order is that of the addresses. -/
theorem canonicalMemoryIsExtensional : Obligations.CanonicalMemoryIsExtensional := by
  unfold Obligations.CanonicalMemoryIsExtensional
  intro font m m' hm hm' hread
  refine Memory.eq_of_mem_iff hm.1 hm'.1 fun ⟨a, b⟩ => ?_
  rw [Memory.mem_iff_read hm, Memory.mem_iff_read hm', hread a]

/-! ### Frames of the named operations -/

/-- The store of a block that answers a state has mapped its addresses, met no font fault, and made its stores. -/
theorem State.writeBlock_eq_ok {s t : State} {base : Nat} {bytes : List Byte} (ht : s.writeBlock base bytes = .ok t) :
    ∃ as, mapBlock s.cfg base bytes.length = some as ∧ fontFault s.cfg as = false ∧
      t = { s with mem := Memory.writeAll s.cfg.font s.mem (storesMade s.cfg (as.zip bytes)) } := by
  obtain ⟨as, ha, hf, hw⟩ | ⟨-, hw⟩ | ⟨as, -, -, hw⟩ := s.writeBlock_cases base bytes <;> rw [hw] at ht <;> cases ht
  exact ⟨as, ha, hf, rfl⟩

/-- Where the store of a block is made, only the indexes of its addresses can change (R90, R91). -/
theorem State.byteAt_writeBlock_of_not_mapped {s t : State} {base a : Nat} {bytes : List Byte}
    (ht : s.writeBlock base bytes = .ok t) (ha : ∀ k < bytes.length, mapAddr s.cfg (base + k) ≠ some a) :
    t.byteAt a = s.byteAt a := by
  obtain ⟨as, has, -, rfl⟩ := State.writeBlock_eq_ok ht
  refine Memory.read_stores_of_not_mem s.cfg.font s.mem bytes fun hmem => ?_
  obtain ⟨hlen, hmap⟩ := (mapBlock_eq_some_iff _ _ _ _).mp has
  obtain ⟨k, hk, hka⟩ := List.getElem_of_mem hmem
  refine ha k (hlen ▸ hk) ?_
  rw [hmap k (hlen ▸ hk), List.getElem?_eq_getElem hk, hka]

/-- The store of a block changes memory and nothing else. -/
theorem State.eq_of_writeBlock {s t : State} {base : Nat} {bytes : List Byte} (ht : s.writeBlock base bytes = .ok t) :
    t = { s with mem := t.mem } := by
  obtain ⟨as, -, -, rfl⟩ := State.writeBlock_eq_ok ht
  rfl

section
variable {w : Touched} {s t : State}

/-- An advance touches nothing beside pc. -/
theorem Frame.advance (w : Touched) (s : State) : Frame w s s.advance where
  regs _ _ := rfl
  bytes _ _ := rfl
  index _ := rfl
  stack _ := ⟨rfl, rfl⟩
  delay _ := rfl
  sound _ := rfl
  pixels _ := rfl
  wait _ := rfl
  fault _ := ⟨rfl, rfl⟩
  draws _ := rfl
  keys := rfl
  cfg := rfl

/-- Fault entry touches run_state and fault_cause alone (R405). -/
theorem Frame.takeFault (hw : w.fault) (s : State) (c : FaultCause) : Frame w s (s.takeFault c) :=
  { Frame.advance w s with fault := fun h => absurd hw h }

theorem Frame.withIndex (h : Frame w s t) (hw : w.index) (i : Word) : Frame w s { t with i := i } :=
  { h with index := fun hn => absurd hw hn }

theorem Frame.withFb (h : Frame w s t) (hw : w.pixels) (fb : List (List Bool)) : Frame w s { t with fb := fb } :=
  { h with pixels := fun hn => absurd hw hn }

theorem Frame.withRegs (h : Frame w s t) {v : Vector Byte 16}
    (hv : ∀ r : Reg, ¬ w.regs r → ({ t with v := v } : State).reg r = t.reg r) : Frame w s { t with v := v } :=
  { h with regs := fun r hr => (hv r hr).trans (h.regs r hr) }

theorem Frame.setReg (h : Frame w s t) {x : Reg} (hw : w.regs x) (b : Byte) : Frame w s (t.setReg x b) :=
  h.withRegs fun _ hr => t.reg_setReg_of_ne b fun e => hr (e ▸ hw)

/-- Loading registers touches as many of them as there are bytes (R286). -/
theorem Frame.loadRegs (h : Frame w s t) {bytes : List Byte} (hw : ∀ r : Reg, r.val < bytes.length → w.regs r) :
    Frame w s (t.loadRegs bytes) :=
  h.withRegs fun r hr => t.reg_loadRegs_of_length_le (Nat.le_of_not_lt fun hlt => hr (hw r hlt))

/-- FX55 and FX65 touch I only under LDST_INCREMENT_I (R285, R286). -/
theorem Frame.bumpIndex (h : Frame w s t) (hw : s.cfg.ldstIncrementI = true → w.index) (x : Reg) :
    Frame w s (t.bumpIndex x) := by
  unfold State.bumpIndex
  split
  · next hi => exact h.withIndex (hw (h.cfg ▸ hi)) _
  · exact h

/-- The store of a block touches the bytes at the indexes of its addresses (R90). -/
theorem Frame.writeBlock {u : State} (h : Frame w s u) {base : Nat} {bytes : List Byte}
    (ht : u.writeBlock base bytes = .ok t)
    (hw : ∀ k < bytes.length, ∀ a, mapAddr s.cfg (base + k) = some a → w.bytes a) : Frame w s t := by
  have hbytes : ∀ a, ¬ w.bytes a → t.byteAt a = s.byteAt a := fun a ha => by
    rw [State.byteAt_writeBlock_of_not_mapped ht fun k hk hm => ha (hw k hk a (h.cfg ▸ hm)), h.bytes a ha]
  rw [State.eq_of_writeBlock ht] at hbytes ⊢
  exact { h with bytes := hbytes }

/-- An instruction that ends through `complete` stays in a frame that allows fault entry, if its own next state does. -/
theorem Frame.of_complete {e : Except FaultCause State} (hw : w.fault) (ht : complete s e = .next t)
    (hok : ∀ u, e = .ok u → Frame w s u) : Frame w s t := by
  obtain hu | ⟨c, -, rfl⟩ := complete_eq_next ht
  · exact hok t hu
  · exact Frame.takeFault hw s c

theorem Frame.of_complete_map {α : Type} {e : Except FaultCause α} {f : α → State} (hw : w.fault)
    (ht : complete s (e.map f) = .next t) (hok : ∀ a, e = .ok a → Frame w s (f a)) : Frame w s t := by
  obtain ⟨a, ha, rfl⟩ | ⟨c, -, rfl⟩ := complete_map_eq_next ht
  · exact hok a ha
  · exact Frame.takeFault hw s c

end

/-- Settles O60: each instruction is an advance and the operations whose frames stand above, or fault entry. -/
theorem memoryDisplayFrame : Obligations.MemoryDisplayFrame := by
  unfold Obligations.MemoryDisplayFrame
  intro i s t w hw ht
  have adv := Frame.advance w s
  cases i with
  | ldI nnn | addI x | ldF x => cases hw; cases ht; exact adv.withIndex trivial _
  | cls => cases hw; cases ht; exact adv.withFb trivial _
  | drw x y n => cases hw; exact Frame.of_complete_map trivial ht fun _ _ => (adv.withFb trivial _).setReg rfl _
  | ldB x => cases hw; exact Frame.of_complete trivial ht fun u hu => adv.writeBlock hu fun k hk a ha => ⟨k, hk, ha⟩
  | stRegs x =>
    cases hw
    refine Frame.of_complete_map trivial ht fun u hu => (adv.writeBlock hu fun k hk a ha => ?_).bumpIndex id x
    rw [s.length_regsUpTo] at hk
    exact ⟨k, Nat.le_of_lt_succ hk, ha⟩
  | ldRegs x =>
    cases hw
    refine Frame.of_complete_map trivial ht fun bytes hb => (adv.loadRegs fun r hr => ?_).bumpIndex id x
    rw [State.length_of_readBlock hb] at hr
    exact Nat.le_of_lt_succ hr
  | _ => cases hw

/-! ### The font region -/

/-- `t` has the configuration of `s` and the bytes of `s` in the font region (R82). -/
structure SameFont (s t : State) : Prop where
  cfg   : t.cfg = s.cfg
  bytes : ∀ a < fontEnd, t.byteAt a = s.byteAt a

theorem SameFont.fontIntact {s t : State} (h : SameFont s t) (hs : s.FontIntact) : t.FontIntact := by
  intro a ha
  rw [h.bytes a ha, hs a ha, h.cfg]

theorem SameFont.trans {s t u : State} (h : SameFont s t) (h' : SameFont t u) : SameFont s u :=
  ⟨h'.cfg.trans h.cfg, fun a ha => (h'.bytes a ha).trans (h.bytes a ha)⟩

/-- What leaves memory and the configuration alone leaves the font alone. -/
theorem SameFont.of_mem {s t : State} (hm : t.mem = s.mem) (hc : t.cfg = s.cfg) : SameFont s t :=
  ⟨hc, fun a _ => State.byteAt_congr hm hc a⟩

theorem SameFont.refl (s : State) : SameFont s s := .of_mem rfl rfl

theorem SameFont.advance (s : State) : SameFont s s.advance := .of_mem rfl rfl

theorem SameFont.skipIf (s : State) (cond : Bool) : SameFont s (s.skipIf cond) := .of_mem (by simp) (by simp)

theorem SameFont.bumpIndex (s : State) (x : Reg) : SameFont s (s.bumpIndex x) := .of_mem (by simp) (by simp)

theorem SameFont.popPc {s t : State} (ht : s.popPc = .ok t) : SameFont s t := by
  unfold State.popPc at ht
  split at ht <;> cases ht
  exact .of_mem rfl rfl

theorem SameFont.push {s t : State} {w : Word} (ht : s.push w = .ok t) : SameFont s t := by
  unfold State.push at ht
  split at ht <;> cases ht
  exact .of_mem rfl rfl

/-- Where the policy protects the font, a store of a block that is made meets it nowhere (R91; D4): under fault the
block would have faulted, under ignore the store is dropped. -/
theorem fontEnd_le_of_mem_storesMade {c : Config} (hp : c.fontWritePolicy ≠ .write) {as : List Nat} {bytes : List Byte}
    (hf : fontFault c as = false) {w : Nat × Byte} (hw : w ∈ storesMade c (as.zip bytes)) : fontEnd ≤ w.1 := by
  obtain ⟨hz, hi⟩ := (mem_storesMade_iff c _ w).mp hw
  by_contra hlt
  cases hc : c.fontWritePolicy with
  | fault =>
    have hft := (fontFault_eq_true_iff c as).mpr ⟨hc, w.1, (List.of_mem_zip hz).1, Nat.lt_of_not_le hlt⟩
    simp [hf] at hft
  | ignore => exact hi ⟨hc, Nat.lt_of_not_le hlt⟩
  | write => exact hp hc

theorem SameFont.writeBlock {s t : State} {base : Nat} {bytes : List Byte} (hp : s.cfg.fontWritePolicy ≠ .write)
    (ht : s.writeBlock base bytes = .ok t) : SameFont s t := by
  obtain ⟨as, -, hf, rfl⟩ := State.writeBlock_eq_ok ht
  refine ⟨rfl, fun a ha => Memory.read_writeAll_of_not_mem _ _ _ a fun w hw => ?_⟩
  exact (ha.trans_le (fontEnd_le_of_mem_storesMade hp hf hw)).ne'

/-- An instruction that ends through `complete` leaves the font alone if its own next state does: fault entry does. -/
theorem SameFont.of_complete {s t : State} {e : Except FaultCause State} (ht : complete s e = .next t)
    (hok : ∀ u, e = .ok u → SameFont s u) : SameFont s t := by
  obtain hu | ⟨c, -, rfl⟩ := complete_eq_next ht
  · exact hok t hu
  · exact .of_mem rfl rfl

theorem SameFont.of_complete_map {α : Type} {s t : State} {e : Except FaultCause α} {f : α → State}
    (ht : complete s (e.map f) = .next t) (hok : ∀ a, e = .ok a → SameFont s (f a)) : SameFont s t := by
  obtain ⟨a, ha, rfl⟩ | ⟨c, -, rfl⟩ := complete_map_eq_next ht
  · exact hok a ha
  · exact .of_mem rfl rfl

/-- FX0A writes no memory (R363). -/
theorem SameFont.execLdK {s t : State} {x : Reg} (ht : execLdK x s = .next t) : SameFont s t := by
  unfold Machine.execLdK at ht
  split at ht <;> split at ht <;> cases ht <;> exact .of_mem rfl rfl

/-- No instruction changes the font where the policy protects it: FX33 and FX55 alone write memory. -/
theorem exec_sameFont {i : Instr} {s t : State} (hp : s.cfg.fontWritePolicy ≠ .write) (ht : exec i s = .next t) :
    SameFont s t := by
  have adv := SameFont.advance s
  cases i with
  | ldB x => exact .of_complete ht fun _ hu => adv.trans (.writeBlock hp hu)
  | stRegs x => exact .of_complete_map ht fun u hu => (adv.trans (.writeBlock hp hu)).trans (.bumpIndex u x)
  | ldRegs x => exact .of_complete_map ht fun bytes _ => .of_mem (by simp) (by simp)
  | drw x y n => exact .of_complete_map ht fun _ _ => .of_mem rfl rfl
  | ret => exact .of_complete ht fun _ hu => adv.trans (.popPc hu)
  | call nnn => exact .of_complete_map ht fun u hu => (adv.trans (.push hu)).trans (.of_mem rfl rfl)
  | skp x | sknp x => exact .of_complete_map ht fun _ _ => adv.trans (.skipIf _ _)
  | seImm x y | sneImm x y | seReg x y | sneReg x y => cases ht; exact adv.trans (.skipIf _ _)
  | ldK x => exact .execLdK ht
  | cls | jp nnn | jpV0 nnn | ldI nnn => cases ht; exact .of_mem rfl rfl
  | ldImm x y | addImm x y | ldReg x y | or x y | and x y | xor x y => cases ht; exact .of_mem rfl rfl
  | addReg x y | sub x y | shr x y | subn x y | shl x y | rnd x y => cases ht; exact .of_mem rfl rfl
  | ldVxDt x | ldDt x | ldSt x | addI x | ldF x => cases ht; exact .of_mem rfl rfl

theorem step_sameFont {s t : State} (hp : s.cfg.fontWritePolicy ≠ .write) (ht : step s = .next t) : SameFont s t := by
  by_cases hr : s.runState = .running
  · cases hf : s.fetch with
    | error c => rw [step_of_fetch_error hr hf] at ht; cases ht; exact .of_mem rfl rfl
    | ok op =>
      cases hd : decode s.cfg op with
      | instr i => rw [step_of_instr hr hf hd] at ht; exact exec_sameFont hp ht
      | unassigned op' => rw [step_of_unassigned hr hf hd] at ht; cases ht; exact .advance s
  · rw [step_of_not_running hr] at ht; cases ht; exact .refl s

/-- A load writes from the entry point on, which lies above the font (R83, R470). -/
theorem SameFont.load (s : State) (prog : List Byte) : SameFont s (s.load prog).2 := by
  unfold State.load
  split
  · refine ⟨rfl, fun a ha => Memory.read_writeAll_of_not_mem _ _ _ a fun w hw => ?_⟩
    have hr := List.mem_range'_1.mp (List.of_mem_zip hw).1
    simp only [entryPoint, fontEnd] at hr ha
    omega
  · exact .refl s

theorem SameFont.setKey {s t : State} {k : Nat} {b : Bool} (ht : s.setKey k b = .next t) : SameFont s t := by
  unfold State.setKey at ht
  split at ht <;> cases ht
  exact .of_mem rfl rfl

/-- Reset places the font (R84, R461). -/
theorem State.fontIntact_hostReset (s : State) : s.hostReset.FontIntact := by
  intro a ha
  show (s.cfg.font[a]?).getD 0 = s.cfg.font[a]
  rw [Vector.getElem?_eq_getElem ha, Option.getD_some]

/-- Settles O17: reset places the font, and every other host operation leaves it as it is. -/
theorem fontStaysImmutable : Obligations.FontStaysImmutable := by
  unfold Obligations.FontStaysImmutable
  intro s t op hp hs ht
  have keep (h : SameFont s t) : t.FontIntact ∧ t.cfg = s.cfg := ⟨h.fontIntact hs, h.cfg⟩
  cases op with
  | reset => cases ht; exact ⟨s.fontIntact_hostReset, rfl⟩
  | load prog => cases ht; exact keep (.load s prog)
  | step => exact keep (step_sameFont hp ht)
  | tickTimers => cases ht; exact keep (.of_mem rfl rfl)
  | setKey k b => exact keep (.setKey ht)
  | setPaused b => cases ht; exact keep (.of_mem rfl rfl)

end Sys2Proof.Machine
end

section
/-! PROOFS. Encoding (30_encoding.md): an encoded instruction decodes back (O1), the opcode table is the dispatch on
the top nibble and the secondary field (O4, O5), strict decoding drops no bit (O2), the spec's words (O3), the
unassigned no-op (O8), and that every step answers a next state (O12). -/

namespace Sys2Proof.Machine

open Sys2Proof.Claims

/-! ### Decoding an encoded word -/

/-- Every instruction's word matches a row of the table that builds it back. -/
theorem encodedRow (i : Instr) : Laws.EncodedRow.Statement i :=
  match i with
  | .cls         => Laws.EncodedRow.cls
  | .ret         => Laws.EncodedRow.ret
  | .jp nnn      => Laws.EncodedRow.jp nnn
  | .call nnn    => Laws.EncodedRow.call nnn
  | .seImm x nn  => Laws.EncodedRow.seImm x nn
  | .sneImm x nn => Laws.EncodedRow.sneImm x nn
  | .seReg x y   => Laws.EncodedRow.seReg x y
  | .ldImm x nn  => Laws.EncodedRow.ldImm x nn
  | .addImm x nn => Laws.EncodedRow.addImm x nn
  | .ldReg x y   => Laws.EncodedRow.ldReg x y
  | .or x y      => Laws.EncodedRow.or x y
  | .and x y     => Laws.EncodedRow.and x y
  | .xor x y     => Laws.EncodedRow.xor x y
  | .addReg x y  => Laws.EncodedRow.addReg x y
  | .sub x y     => Laws.EncodedRow.sub x y
  | .shr x y     => Laws.EncodedRow.shr x y
  | .subn x y    => Laws.EncodedRow.subn x y
  | .shl x y     => Laws.EncodedRow.shl x y
  | .sneReg x y  => Laws.EncodedRow.sneReg x y
  | .ldI nnn     => Laws.EncodedRow.ldI nnn
  | .jpV0 nnn    => Laws.EncodedRow.jpV0 nnn
  | .rnd x nn    => Laws.EncodedRow.rnd x nn
  | .drw x y n   => Laws.EncodedRow.drw x y n
  | .skp x       => Laws.EncodedRow.skp x
  | .sknp x      => Laws.EncodedRow.sknp x
  | .ldVxDt x    => Laws.EncodedRow.ldVxDt x
  | .ldK x       => Laws.EncodedRow.ldK x
  | .ldDt x      => Laws.EncodedRow.ldDt x
  | .ldSt x      => Laws.EncodedRow.ldSt x
  | .addI x      => Laws.EncodedRow.addI x
  | .ldF x       => Laws.EncodedRow.ldF x
  | .ldB x       => Laws.EncodedRow.ldB x
  | .stRegs x    => Laws.EncodedRow.stRegs x
  | .ldRegs x    => Laws.EncodedRow.ldRegs x

theorem decode_of_encode_eq (c : Config) {i : Instr} {op : Word} (h : encode i = op) : decode c op = .instr i := by
  obtain ⟨r, hr, hm, hb⟩ := encodedRow i c
  rw [← h, decode_eq_of_row hr hm, hb]

/-- Settles O1: the row that the encoded word matches is the one the decoder finds, and it builds the instruction. -/
theorem encodedInstructionDecodesBack : Obligations.EncodedInstructionDecodesBack := by
  unfold Obligations.EncodedInstructionDecodesBack
  exact fun c i => decode_of_encode_eq c rfl

/-! ### The words with a given top nibble and secondary field -/

theorem packAddr_of_top {op : Word} (top : Nibble) (ht : (op.extractLsb' 12 4).toNat = top.toNat) :
    packAddr top (fieldNNN op) = op := by
  rw [← BitVec.eq_of_toNat_eq ht, packAddr_fields]

theorem packXNN_of_top {op : Word} (top : Nibble) (ht : (op.extractLsb' 12 4).toNat = top.toNat) :
    packXNN top (fieldX op) (fieldNN op) = op := by
  rw [← BitVec.eq_of_toNat_eq ht, packXNN_fields]

theorem packXY_of_top {op : Word} (top : Nibble) (ht : (op.extractLsb' 12 4).toNat = top.toNat) :
    packXY top (fieldX op) (fieldY op) (fieldN op) = op := by
  rw [← BitVec.eq_of_toNat_eq ht, packXY_fields]

theorem packXNN_of_top_byte {op : Word} (top : Nibble) (low : Byte) (ht : (op.extractLsb' 12 4).toNat = top.toNat)
    (hl : (fieldNN op).toNat = low.toNat) : packXNN top (fieldX op) low = op := by
  rw [← BitVec.eq_of_toNat_eq hl, packXNN_of_top top ht]

theorem packXY_of_top_low {op : Word} (top low : Nibble) (ht : (op.extractLsb' 12 4).toNat = top.toNat)
    (hl : (fieldN op).toNat = low.toNat) : packXY top (fieldX op) (fieldY op) low = op := by
  rw [← BitVec.eq_of_toNat_eq hl, packXY_of_top top ht]

/-! ### The rows with a given top nibble -/

/-- Every row tests the whole top nibble (R121, R125). -/
theorem top_of_row {c : Config} {r : OpcodeRow} (hr : r ∈ opcodeRows c) {op : Word} (hm : op &&& r.mask = r.pat) :
    r.pat.extractLsb' 12 4 = op.extractLsb' 12 4 := by
  have hmask : ∀ r ∈ opcodeRows c, r.mask.extractLsb' 12 4 = BitVec.allOnes 4 := by
    simp [opcodeRows, rowsAddr, rowsImm, rowsXY, rowsX, mask59, apply_ite (BitVec.extractLsb' 12 4)]
  rw [← hm, BitVec.extractLsb'_and, hmask r hr, BitVec.and_allOnes]

/-- Under top nibble 0 the whole word counts (R126; D5). -/
theorem rows_of_top_0 (c : Config) : ∀ r ∈ opcodeRows c, r.pat.extractLsb' 12 4 = 0 →
    r.mask = 0xFFFF ∧ r.pat ∈ [0x00E0, 0x00EE] := by
  simp [opcodeRows, rowsAddr, rowsImm, rowsXY, rowsX]

/-- Under top nibbles 5 and 9 the configuration says whether the low nibble counts (R127; D6). -/
theorem rows_of_top_5_or_9 (c : Config) {top : Nibble} (h : top = 5 ∨ top = 9) :
    ∀ r ∈ opcodeRows c, r.pat.extractLsb' 12 4 = top → r.mask = mask59 c ∧ fieldN r.pat ∈ [0] := by
  rcases h with rfl | rfl <;> simp [opcodeRows, rowsAddr, rowsImm, rowsXY, rowsX, fieldN]

/-- Under top nibble 8 the low nibble counts (R128). -/
theorem rows_of_top_8 (c : Config) : ∀ r ∈ opcodeRows c, r.pat.extractLsb' 12 4 = 8 →
    r.mask = 0xF00F ∧ (fieldN r.pat).toNat ∈ [0, 1, 2, 3, 4, 5, 6, 7, 0xE] := by
  simp [opcodeRows, rowsAddr, rowsImm, rowsXY, rowsX, fieldN]

/-- Under top nibble 0xE the low byte counts (R129). -/
theorem rows_of_top_E (c : Config) : ∀ r ∈ opcodeRows c, r.pat.extractLsb' 12 4 = 0xE →
    r.mask = 0xF0FF ∧ (fieldNN r.pat).toNat ∈ [0x9E, 0xA1] := by
  simp [opcodeRows, rowsAddr, rowsImm, rowsXY, rowsX, fieldNN]

/-- Under top nibble 0xF the low byte counts (R130). -/
theorem rows_of_top_F (c : Config) : ∀ r ∈ opcodeRows c, r.pat.extractLsb' 12 4 = 0xF →
    r.mask = 0xF0FF ∧ (fieldNN r.pat).toNat ∈ [0x07, 0x0A, 0x15, 0x18, 0x1E, 0x29, 0x33, 0x55, 0x65] := by
  simp [opcodeRows, rowsAddr, rowsImm, rowsXY, rowsX, fieldNN]

theorem fieldN_and_topLow (op : Word) : fieldN (op &&& 0xF00F) = fieldN op := by
  rw [fieldN, BitVec.extractLsb'_and]; exact BitVec.and_allOnes

theorem fieldNN_and_topByte (op : Word) : fieldNN (op &&& 0xF0FF) = fieldNN op := by
  rw [fieldNN, BitVec.extractLsb'_and]; exact BitVec.and_allOnes

/-- Where the rows with the word's top nibble all keep the field `f` and want it in `lows`, a word with another value
there matches no row. -/
theorem no_row_of_field {α : Type} (f : Word → α) {c : Config} {op m : Word} {top : Nibble} {lows : List α}
    (hrows : ∀ r ∈ opcodeRows c, r.pat.extractLsb' 12 4 = top → r.mask = m ∧ f r.pat ∈ lows)
    (ht : (op.extractLsb' 12 4).toNat = top.toNat) (hf : f (op &&& m) = f op) (hop : f op ∉ lows) :
    ∀ r ∈ opcodeRows c, op &&& r.mask ≠ r.pat := by
  intro r hr hm
  obtain ⟨hmask, hlow⟩ := hrows r hr ((top_of_row hr hm).trans (BitVec.eq_of_toNat_eq ht))
  rw [← hm, hmask, hf] at hlow
  exact hop hlow

/-! ### The dispatch by nibbles and the table -/

/-- How the opcode table justifies an answer of a decoder for the word `op`. -/
inductive Justified (c : Config) (op : Word) : Decoded → Prop
  /-- The word is the encoding of the instruction. -/
  | encoded {i : Instr} (h : encode i = op) : Justified c op (.instr i)
  /-- The word matches a row that drops some of its bits, which strict decoding excludes (R127; D6). -/
  | loose (hs : c.decode59Strict = false) {r : OpcodeRow} (hr : r ∈ opcodeRows c) (hm : op &&& r.mask = r.pat) :
    Justified c op (.instr (r.build op))
  /-- No row matches the word (R131). -/
  | noRow (h : ∀ r ∈ opcodeRows c, op &&& r.mask ≠ r.pat) : Justified c op (.unassigned op)

theorem decode_eq_of_justified {c : Config} {op : Word} {d : Decoded} (h : Justified c op d) : decode c op = d := by
  cases h with
  | encoded h => exact decode_of_encode_eq c h
  | loose _ hr hm => exact decode_eq_of_row hr (by simpa [OpcodeRow.matchesWord] using hm)
  | noRow h => exact (decode_eq_unassigned_iff c op).mpr fun r hr => by simpa [OpcodeRow.matchesWord] using h r hr

/-- The dispatch in 5 and 9: by the low nibble under strict decoding, by the top nibble alone without it (R127). -/
theorem justified_ite_mask59 {c : Config} {op : Word} {top : Nibble} {build : Word → Instr}
    (htop : top = 5 ∨ top = 9) (hr : ⟨mask59 c, placeTop top, build⟩ ∈ opcodeRows c)
    (ht : (op.extractLsb' 12 4).toNat = top.toNat) (henc : fieldN op = 0 → encode (build op) = op) :
    Justified c op (if c.decode59Strict ∧ fieldN op ≠ 0 then .unassigned op else .instr (build op)) := by
  by_cases hs : c.decode59Strict = true
  · by_cases hn : fieldN op = 0
    · rw [if_neg fun h => h.2 hn]
      exact .encoded (henc hn)
    · rw [if_pos ⟨hs, hn⟩]
      have hmask : fieldN (op &&& mask59 c) = fieldN op := by rw [mask59, if_pos hs, fieldN_and_topLow]
      exact .noRow (no_row_of_field fieldN (rows_of_top_5_or_9 c htop) ht hmask (by simpa using hn))
  · rw [if_neg fun h => hs h.1]
    refine .loose (by simpa using hs) hr ?_
    rw [mask59, if_neg hs, mask_top, BitVec.eq_of_toNat_eq ht]

section
variable (c : Config) {op : Word}

theorem justified_of_top_0 (ht : (op.extractLsb' 12 4).toNat = 0) : Justified c op (selectByNibble c op) := by
  simp only [selectByNibble, ht]
  split
  next h => exact .encoded h.symm
  next hcls =>
    split
    next h => exact .encoded h.symm
    next hret =>
      refine .noRow (no_row_of_field id (rows_of_top_0 c) ht (mask_all op) ?_)
      simpa using ⟨hcls, hret⟩

theorem justified_of_top_5 (ht : (op.extractLsb' 12 4).toNat = 5) : Justified c op (selectByNibble c op) := by
  simp only [selectByNibble, ht]
  exact justified_ite_mask59 (top := 5) (build := fun op => .seReg (fieldX op) (fieldY op)) (.inl rfl)
    (by simp [opcodeRows, rowsXY, placeTop]) ht
    fun hn => packXY_of_top_low 5 0 ht (congrArg BitVec.toNat hn)

theorem justified_of_top_8 (ht : (op.extractLsb' 12 4).toNat = 8) : Justified c op (selectByNibble c op) := by
  simp only [selectByNibble, ht]
  split
  next h => exact .encoded (packXY_of_top_low 8 0 ht h)
  next h => exact .encoded (packXY_of_top_low 8 1 ht h)
  next h => exact .encoded (packXY_of_top_low 8 2 ht h)
  next h => exact .encoded (packXY_of_top_low 8 3 ht h)
  next h => exact .encoded (packXY_of_top_low 8 4 ht h)
  next h => exact .encoded (packXY_of_top_low 8 5 ht h)
  next h => exact .encoded (packXY_of_top_low 8 6 ht h)
  next h => exact .encoded (packXY_of_top_low 8 7 ht h)
  next h => exact .encoded (packXY_of_top_low 8 0xE ht h)
  next =>
    refine .noRow (no_row_of_field (fun w => (fieldN w).toNat) (rows_of_top_8 c) ht (by rw [fieldN_and_topLow]) ?_)
    simp only [List.mem_cons, List.not_mem_nil, or_false]
    tauto

theorem justified_of_top_9 (ht : (op.extractLsb' 12 4).toNat = 9) : Justified c op (selectByNibble c op) := by
  simp only [selectByNibble, ht]
  exact justified_ite_mask59 (top := 9) (build := fun op => .sneReg (fieldX op) (fieldY op)) (.inr rfl)
    (by simp [opcodeRows, rowsXY, placeTop]) ht
    fun hn => packXY_of_top_low 9 0 ht (congrArg BitVec.toNat hn)

theorem justified_of_top_E (ht : (op.extractLsb' 12 4).toNat = 0xE) : Justified c op (selectByNibble c op) := by
  simp only [selectByNibble, ht]
  split
  next h => exact .encoded (packXNN_of_top_byte 0xE 0x9E ht h)
  next h => exact .encoded (packXNN_of_top_byte 0xE 0xA1 ht h)
  next =>
    refine .noRow (no_row_of_field (fun w => (fieldNN w).toNat) (rows_of_top_E c) ht (by rw [fieldNN_and_topByte]) ?_)
    simp only [List.mem_cons, List.not_mem_nil, or_false]
    tauto

theorem justified_of_top_F (ht : (op.extractLsb' 12 4).toNat = 0xF) : Justified c op (selectByNibble c op) := by
  simp only [selectByNibble, ht]
  split
  next h => exact .encoded (packXNN_of_top_byte 0xF 0x07 ht h)
  next h => exact .encoded (packXNN_of_top_byte 0xF 0x0A ht h)
  next h => exact .encoded (packXNN_of_top_byte 0xF 0x15 ht h)
  next h => exact .encoded (packXNN_of_top_byte 0xF 0x18 ht h)
  next h => exact .encoded (packXNN_of_top_byte 0xF 0x1E ht h)
  next h => exact .encoded (packXNN_of_top_byte 0xF 0x29 ht h)
  next h => exact .encoded (packXNN_of_top_byte 0xF 0x33 ht h)
  next h => exact .encoded (packXNN_of_top_byte 0xF 0x55 ht h)
  next h => exact .encoded (packXNN_of_top_byte 0xF 0x65 ht h)
  next =>
    refine .noRow (no_row_of_field (fun w => (fieldNN w).toNat) (rows_of_top_F c) ht (by rw [fieldNN_and_topByte]) ?_)
    simp only [List.mem_cons, List.not_mem_nil, or_false]
    tauto

theorem justified_selectByNibble (op : Word) : Justified c op (selectByNibble c op) := by
  have hlt := (op.extractLsb' 12 4).isLt
  interval_cases ht : (op.extractLsb' 12 4).toNat
  · exact justified_of_top_0 c ht
  · simp only [selectByNibble, ht]; exact .encoded (packAddr_of_top 1 ht)
  · simp only [selectByNibble, ht]; exact .encoded (packAddr_of_top 2 ht)
  · simp only [selectByNibble, ht]; exact .encoded (packXNN_of_top 3 ht)
  · simp only [selectByNibble, ht]; exact .encoded (packXNN_of_top 4 ht)
  · exact justified_of_top_5 c ht
  · simp only [selectByNibble, ht]; exact .encoded (packXNN_of_top 6 ht)
  · simp only [selectByNibble, ht]; exact .encoded (packXNN_of_top 7 ht)
  · exact justified_of_top_8 c ht
  · exact justified_of_top_9 c ht
  · simp only [selectByNibble, ht]; exact .encoded (packAddr_of_top 0xA ht)
  · simp only [selectByNibble, ht]; exact .encoded (packAddr_of_top 0xB ht)
  · simp only [selectByNibble, ht]; exact .encoded (packXNN_of_top 0xC ht)
  · simp only [selectByNibble, ht]; exact .encoded (packXY_of_top 0xD ht)
  · exact justified_of_top_E c ht
  · exact justified_of_top_F c ht

end

/-- Settles O4: the table justifies every answer of the dispatch, and the decoder gives what the table justifies. -/
theorem decodeDispatchesByNibbles : Obligations.DecodeDispatchesByNibbles := by
  unfold Obligations.DecodeDispatchesByNibbles
  exact fun c op => decode_eq_of_justified (justified_selectByNibble c op)

/-- Settles O2: the answer of the dispatch is an encoding, or comes from a row that strict decoding excludes. -/
theorem decodedWordEncodesBack : Obligations.DecodedWordEncodesBack := by
  unfold Obligations.DecodedWordEncodesBack
  intro c op i hs hd
  have hj := justified_selectByNibble c op
  rw [← decodeDispatchesByNibbles, hd] at hj
  cases hj with
  | encoded h => exact h
  | loose hloose => rw [hs] at hloose; cases hloose

/-- Settles O5, by the arms of the dispatch under top nibble 8. -/
theorem eightGroupSelectsByLowNibble : Obligations.EightGroupSelectsByLowNibble := by
  unfold Obligations.EightGroupSelectsByLowNibble
  intro c op ht
  have ht : (op.extractLsb' 12 4).toNat = 8 := congrArg BitVec.toNat ht
  rw [decodeDispatchesByNibbles]
  simp only [selectByNibble, ht, List.mem_cons, List.not_mem_nil, or_false]
  refine ⟨?_, ?_, ?_, ?_, ?_, ?_, ?_, ?_, ?_, ?unassigned⟩
  case unassigned => rintro (hn | hn | hn | hn | hn | hn | hn) <;> rw [hn] <;> rfl
  all_goals intro hn; rw [hn]; rfl

/-- Settles O3: nine of the words are encodings, and the dispatch assigns nothing to the other three. -/
theorem specWordsDecode : Obligations.SpecWordsDecode := by
  unfold Obligations.SpecWordsDecode
  have enc {i : Instr} {op : Word} (h : encode i = op) : decode Config.default op = .instr i := decode_of_encode_eq _ h
  refine ⟨enc rfl, enc rfl, enc rfl, enc rfl, enc rfl, enc rfl, enc rfl, enc rfl, enc rfl, ?_⟩
  simp only [decodeDispatchesByNibbles _ _]
  decide

/-! ### Unassigned words and the totality of a step -/

/-- Settles O8: the step of an unassigned word is the fetch's advance, and the dispatch assigns nothing to 0x0000. -/
theorem unassignedWordIsNoOp : Obligations.UnassignedWordIsNoOp := by
  unfold Obligations.UnassignedWordIsNoOp
  refine ⟨fun s op hr hf hd => step_of_unassigned hr hf hd, fun c => ?_⟩
  rw [decodeDispatchesByNibbles]
  rfl

theorem complete_answers_next (s : State) (e : Except FaultCause State) : ∃ t, complete s e = .next t := by
  cases e with
  | ok t => exact ⟨t, complete_ok s t⟩
  | error c => exact ⟨_, complete_error s c⟩

/-- FX0A waits or takes a key, in each of its four cases (R363). -/
theorem execLdK_answers_next (x : Reg) (s : State) : ∃ t, execLdK x s = .next t := by
  unfold execLdK
  split <;> split <;> exact ⟨_, rfl⟩

/-- Every instruction answers a next state: it writes one, or ends through `complete`, or is FX0A. -/
theorem exec_answers_next (i : Instr) (s : State) : ∃ t, exec i s = .next t := by
  cases i with
  | ret | call _ | drw _ _ _ | skp _ | sknp _ | ldB _ | stRegs _ | ldRegs _ => exact complete_answers_next s _
  | ldK x => exact execLdK_answers_next x s
  | _ => exact ⟨_, rfl⟩

/-- Settles O12: a fault of the fetch is fault entry, and every decoded word answers a next state. -/
theorem stepAlwaysAnswersNext : Obligations.StepAlwaysAnswersNext := by
  unfold Obligations.StepAlwaysAnswersNext
  intro s
  by_cases hr : s.runState = .running
  · cases hf : s.fetch with
    | error c => exact ⟨_, step_of_fetch_error hr hf⟩
    | ok op =>
      cases hd : decode s.cfg op with
      | instr i => rw [step_of_instr hr hf hd]; exact exec_answers_next i s
      | unassigned op' => exact ⟨_, step_of_unassigned hr hf hd⟩
  · exact ⟨s, step_of_not_running hr⟩

end Sys2Proof.Machine
end

section
/-! PROOFS. Control flow (40_control_flow.md): the step and its fetch (O6, O9, O11), and the words and effects of the
return, the jumps, the call and the skips (O28 to O33). -/

namespace Sys2Proof.Machine

open Sys2Proof.Claims

/-! ### The step and its fetch -/

/-- Settles O6: the fetch reads the two mapped bytes, and the step runs what they decode to. -/
theorem stepRunsDecodedInstruction : Obligations.StepRunsDecodedInstruction := by
  unfold Obligations.StepRunsDecodedInstruction
  exact fun s a b i hr ha hb hd => step_of_instr hr (State.fetch_of_mapped ha hb) hd

/-- Settles O9: outside Running a step is a no-op. -/
theorem stepOutsideRunningChangesNothing : Obligations.StepOutsideRunningChangesNothing := by
  unfold Obligations.StepOutsideRunningChangesNothing
  exact fun s hr => step_of_not_running hr

/-- A fetch whose second byte has no address faults (R90, R201). -/
theorem State.fetch_of_unmapped_succ {s : State} (h : mapAddr s.cfg (s.pc.toNat + 1) = none) :
    s.fetch = .error .memBounds := by
  rcases s.fetch_cases with ⟨a, b, -, hb, -⟩ | ⟨-, hf⟩
  · rw [h] at hb; cases hb
  · exact hf

/-- Settles O11: above 0xFFE the second byte has no address under fault; up to there, and under wrap everywhere, both
bytes have one. -/
theorem fetchBeyondMemoryFaults : Obligations.FetchBeyondMemoryFaults := by
  unfold Obligations.FetchBeyondMemoryFaults
  intro s
  refine ⟨fun hr hp hpc => ?beyond, fun hp hpc => ?within, fun hp => ?wrapped⟩
  case beyond => exact step_of_fetch_error hr (State.fetch_of_unmapped_succ (mapAddr_fault_of_gt hp (by omega)))
  case within =>
    exact State.fetch_of_mapped (mapAddr_fault_of_le hp (by omega)) (mapAddr_fault_of_le hp (by omega))
  case wrapped => exact State.fetch_of_mapped (mapAddr_wrap _ hp) (mapAddr_wrap _ hp)

/-! ### The words a row of the opcode table selects -/

/-- A row of the table decides every word that matches it (R125). -/
theorem selects_of_row {mask pat : Word} {build : Word → Instr} (h : ∀ c, ⟨mask, pat, build⟩ ∈ opcodeRows c) :
    Selects mask pat build :=
  fun c _ hm => decode_eq_of_row (h c) (beq_iff_eq.mpr hm)

/-- The same for a row of 5XY0 or 9XY0, its mask written out for both settings (R127; D6). -/
theorem selects59_of_row {pat : Word} {build : Word → Instr} (h : ∀ c, ⟨mask59 c, pat, build⟩ ∈ opcodeRows c) :
    Selects59 pat build := by
  have row {c : Config} {op : Word} (hm : op &&& mask59 c = pat) : decode c op = .instr (build op) :=
    decode_eq_of_row (h c) (beq_iff_eq.mpr hm)
  refine fun c op => ⟨fun hs hm => row ?_, fun hs hm => row ?_⟩
  · rwa [mask59, if_pos hs]
  · rwa [mask59, if_neg (by simp [hs])]

/-! ### Jumps -/

@[simp] theorem toNat_zextAddr (nnn : Addr12) : (zextAddr nnn).toNat = nnn.toNat :=
  BitVec.toNat_setWidth_of_le (by decide)

@[simp] theorem toNat_zextByte (b : Byte) : (zextByte b).toNat = b.toNat := BitVec.toNat_setWidth_of_le (by decide)

/-- The sum of BNNN fits 16 bits, so it is not reduced (R212). -/
theorem toNat_zextAddr_add_zextByte (nnn : Addr12) (b : Byte) :
    (zextAddr nnn + zextByte b).toNat = nnn.toNat + b.toNat := by
  have hn := nnn.isLt
  have hb := b.isLt
  rw [BitVec.toNat_add, toNat_zextAddr, toNat_zextByte, Nat.mod_eq_of_lt (by omega)]

/-- Settles O29: the jump writes NNN to pc. -/
theorem jpSetsPc : Obligations.JpSetsPc := by
  unfold Obligations.JpSetsPc
  exact ⟨selects_of_row fun c => by simp [opcodeRows, rowsAddr],
    fun s nnn => ⟨_, rfl, rfl, toNat_zextAddr nnn⟩⟩

/-- Settles O33: the jump writes the sum to pc, and the sum does not overflow. -/
theorem jpV0AddsRegisterZero : Obligations.JpV0AddsRegisterZero := by
  unfold Obligations.JpV0AddsRegisterZero
  exact ⟨selects_of_row fun c => by simp [opcodeRows, rowsAddr],
    fun s nnn => ⟨_, rfl, rfl, toNat_zextAddr_add_zextByte nnn (s.reg 0)⟩⟩

/-! ### Return and call -/

theorem exec_ret_of_popPc {s t : State} (h : s.advance.popPc = .ok t) : exec .ret s = .next t := by
  rw [exec, execRet, h, complete_ok]

theorem exec_ret_of_empty {s : State} (h : s.sp = 0) : exec .ret s = .next (s.takeFault .stackUnderflow) := by
  rw [exec, execRet, s.advance.popPc_of_zero (congrArg Fin.val h), complete_error]

/-- Settles O28: the pop of the advanced state takes the entry below SP, or is refused on an empty stack. -/
theorem retPopsReturnAddress : Obligations.RetPopsReturnAddress := by
  unfold Obligations.RetPopsReturnAddress
  refine ⟨selects_of_row fun c => by simp [opcodeRows, rowsAddr], fun s n hn => ?_, fun s h => exec_ret_of_empty h⟩
  obtain ⟨t, hpop, ht, hsp, hpc⟩ := s.advance.popPc_of_pos n hn
  exact ⟨t, exec_ret_of_popPc hpop, ht, hsp, hpc⟩

/-- A call with room pushes the address after it and jumps (R207). -/
theorem exec_call_of_lt {s : State} (nnn : Addr12) (h : s.sp.val < stackDepth) :
    exec (.call nnn) s = .next { s with
      pc := zextAddr nnn, stack := s.stack.set s.sp.val (s.pc + 2) h, sp := ⟨s.sp.val + 1, Nat.succ_lt_succ h⟩ } := by
  rw [exec, execCall, s.advance.push_of_lt _ h]
  rfl

/-- A call on a full stack faults (R207, R402). -/
theorem exec_call_of_full {s : State} (nnn : Addr12) (h : ¬ s.sp.val < stackDepth) :
    exec (.call nnn) s = .next (s.takeFault .stackOverflow) := by
  rw [exec, execCall, s.advance.push_of_full _ h]
  rfl

/-- Settles O30: the call writes the entry at SP and no other, or is refused on a full stack. -/
theorem callPushesAndJumps : Obligations.CallPushesAndJumps := by
  unfold Obligations.CallPushesAndJumps
  refine ⟨selects_of_row fun c => by simp [opcodeRows, rowsAddr], fun s nnn h => ?room, fun s nnn h => ?full⟩
  case room =>
    exact ⟨_, exec_call_of_lt nnn h, rfl, toNat_zextAddr nnn, rfl, Vector.getElem?_set_self h,
      fun k hk => Vector.getElem?_set_ne h hk.symm⟩
  case full => exact exec_call_of_full nnn (by simp [h])

/-! ### Skips -/

/-- A skip on equal bytes adds 2 to the advanced pc (R213). -/
theorem State.skipIf_beq_advance (s : State) (a b : Byte) :
    s.advance.skipIf (a == b) = { s with pc := if a = b then s.pc + 2 + 2 else s.pc + 2 } := by
  by_cases h : a = b <;> simp [h, State.skipIf, State.advance]

/-- A skip on different bytes adds 2 to the advanced pc (R213). -/
theorem State.skipIf_bne_advance (s : State) (a b : Byte) :
    s.advance.skipIf (a != b) = { s with pc := if a = b then s.pc + 2 else s.pc + 2 + 2 } := by
  by_cases h : a = b <;> simp [h, State.skipIf, State.advance]

/-- Settles O31: SE and SNE skip on the comparison of VX with NN. -/
theorem skipsCompareImmediate : Obligations.SkipsCompareImmediate := by
  unfold Obligations.SkipsCompareImmediate
  refine ⟨selects_of_row fun c => by simp [opcodeRows, rowsImm], selects_of_row fun c => by simp [opcodeRows, rowsImm],
    fun s x nn => ⟨?_, ?_⟩⟩
  · exact congrArg Host.Outcome.next (s.skipIf_beq_advance (s.reg x) nn)
  · exact congrArg Host.Outcome.next (s.skipIf_bne_advance (s.reg x) nn)

/-- Settles O32: SE and SNE skip on the comparison of VX with VY. -/
theorem skipsCompareRegisters : Obligations.SkipsCompareRegisters := by
  unfold Obligations.SkipsCompareRegisters
  refine ⟨selects59_of_row fun c => by simp [opcodeRows, rowsXY],
    selects59_of_row fun c => by simp [opcodeRows, rowsXY], fun s x y => ⟨?_, ?_⟩⟩
  · exact congrArg Host.Outcome.next (s.skipIf_beq_advance (s.reg x) (s.reg y))
  · exact congrArg Host.Outcome.next (s.skipIf_bne_advance (s.reg x) (s.reg y))

end Sys2Proof.Machine
end

section
/-! PROOFS. The ALU (41_alu.md): the words of the register loads, the arithmetic, the logic, the shifts and the random
byte, and what each writes to VX and to the flag (O34 to O40). -/

namespace Sys2Proof.Machine

open Sys2Proof.Claims

/-! ### The registers after a write of VX, and of VX and the flag -/

/-- An advance and a write of VX (R241 to R246). -/
theorem onlyRegs_advance_setReg (s : State) (x : Reg) (b : Byte) : OnlyRegs (· = x) s (s.advance.setReg x b) :=
  ⟨rfl, (Frame.advance_setReg s x b).regs⟩

/-- An advance, a write of VX and then one of the flag (R240, R247 to R251; D7). -/
theorem onlyRegs_advance_setRegFlag (s : State) (x : Reg) (b f : Byte) :
    OnlyRegs (fun r => r = x ∨ r = 15) s (s.advance.setRegFlag x b f) :=
  ⟨rfl, (Frame.advance_setRegFlag s x b f).regs⟩

/-- The flag's write leaves a VX that is not VF (R13). -/
theorem State.reg_setRegFlag_self_of_ne (s : State) {x : Reg} (b f : Byte) (hx : x ≠ 15) :
    (s.setRegFlag x b f).reg x = b := by
  simp [State.reg_setRegFlag, hx]

/-! ### The values and the flags of the arithmetic and the shifts -/

/-- A difference of bytes is the difference of their values modulo 256 (R248, R250). -/
theorem toNat_byte_sub (a b : Byte) : ((a - b).toNat : Int) = (a.toNat - b.toNat : Int) % 256 := by
  have hb := b.isLt
  rw [BitVec.toNat_sub]
  omega

theorem toNat_byte_shiftRight_one (a : Byte) : (a >>> 1).toNat = a.toNat / 2 := by
  rw [BitVec.toNat_ushiftRight, Nat.shiftRight_eq_div_pow, pow_one]

theorem toNat_byte_shiftLeft_one (a : Byte) : (a <<< 1).toNat = a.toNat * 2 % 256 := by
  rw [BitVec.toNat_shiftLeft, Nat.shiftLeft_eq, pow_one]

theorem carryFlag_eq (a b : Byte) : carryFlag a b = if a.toNat + b.toNat > 255 then 1 else 0 := by
  simp [carryFlag, flagByte]

theorem notBorrowFlag_eq (a b : Byte) : notBorrowFlag a b = if a.toNat ≥ b.toNat then 1 else 0 := by
  simp [notBorrowFlag, flagByte]

/-- Bit 0 is the remainder by 2 (R249). -/
theorem toNat_lowBitFlag (a : Byte) : (lowBitFlag a).toNat = a.toNat % 2 :=
  (BitVec.toNat_and a 1).trans (Nat.and_one_is_mod a.toNat)

/-- Bit 7 is the quotient by 128 (R251). -/
theorem toNat_highBitFlag (a : Byte) : (highBitFlag a).toNat = a.toNat / 128 := by
  have ha := a.isLt
  have hq : (highBitFlag a).toNat = a.toNat / 128 % 2 := by
    rw [highBitFlag, BitVec.toNat_and, BitVec.toNat_ushiftRight, Nat.shiftRight_eq_div_pow]
    exact Nat.and_one_is_mod _
  omega

/-- The operand of the shifts, chosen by SHIFT_SOURCE (C7). -/
theorem State.shiftSrc_eq (s : State) (x y : Reg) :
    s.shiftSrc x y = if s.cfg.shiftSource = .vy then s.reg y else s.reg x := by
  unfold State.shiftSrc
  split
  · next h => rw [h, if_pos rfl]
  · next h => rw [h, if_neg (by decide)]

/-! ### The loads and the logic -/

/-- Settles O34: each writes VX alone, 7XNN its sum modulo 256. -/
theorem loadsAndImmediateAdd : Obligations.LoadsAndImmediateAdd := by
  unfold Obligations.LoadsAndImmediateAdd
  refine ⟨selects_of_row fun c => by simp [opcodeRows, rowsImm],
    selects_of_row fun c => by simp [opcodeRows, rowsImm], selects_of_row fun c => by simp [opcodeRows, rowsXY],
    fun s x y nn => ⟨?ldImm, ?addImm, ?ldReg⟩⟩
  case ldImm => exact ⟨_, rfl, onlyRegs_advance_setReg s x _, State.reg_setReg_self _ x _⟩
  case addImm =>
    refine ⟨_, rfl, onlyRegs_advance_setReg s x _, ?_⟩
    rw [State.reg_setReg_self, BitVec.toNat_add]
  case ldReg => exact ⟨_, rfl, onlyRegs_advance_setReg s x _, State.reg_setReg_self _ x _⟩

/-- Settles O35: each writes VX alone, and its value has the bits of the operation. -/
theorem logicIsBitwise : Obligations.LogicIsBitwise := by
  unfold Obligations.LogicIsBitwise
  refine ⟨selects_of_row fun c => by simp [opcodeRows, rowsXY], selects_of_row fun c => by simp [opcodeRows, rowsXY],
    selects_of_row fun c => by simp [opcodeRows, rowsXY], fun s x y => ⟨?or, ?and, ?xor⟩⟩
  case or =>
    refine ⟨_, rfl, onlyRegs_advance_setReg s x _, fun k _ => ?_⟩
    rw [State.reg_setReg_self, BitVec.getLsbD_or]
  case and =>
    refine ⟨_, rfl, onlyRegs_advance_setReg s x _, fun k _ => ?_⟩
    rw [State.reg_setReg_self, BitVec.getLsbD_and]
  case xor =>
    refine ⟨_, rfl, onlyRegs_advance_setReg s x _, fun k _ => ?_⟩
    rw [State.reg_setReg_self, BitVec.getLsbD_xor]

/-! ### The arithmetic -/

/-- Settles O36: the sum goes to VX, then the carry to VF. -/
theorem addSetsCarry : Obligations.AddSetsCarry := by
  unfold Obligations.AddSetsCarry
  refine ⟨selects_of_row fun c => by simp [opcodeRows, rowsXY], fun s x y =>
    ⟨_, rfl, onlyRegs_advance_setRegFlag s x _ _, fun hx => ?sum, ?carry⟩⟩
  case sum => rw [State.reg_setRegFlag_self_of_ne _ _ _ hx, BitVec.toNat_add]
  case carry => rw [State.reg_setRegFlag_regF, carryFlag_eq]

/-- A subtraction writes the difference to VX and then the not-borrow to VF, whichever operand comes first (R248,
R250). -/
theorem advance_setRegFlag_sub (s : State) (x : Reg) (a b : Byte) :
    OnlyRegs (fun r => r = x ∨ r = 15) s (s.advance.setRegFlag x (a - b) (notBorrowFlag a b)) ∧
    (x ≠ 15 → (((s.advance.setRegFlag x (a - b) (notBorrowFlag a b)).reg x).toNat : Int) =
      (a.toNat - b.toNat : Int) % 256) ∧
    (s.advance.setRegFlag x (a - b) (notBorrowFlag a b)).reg 15 = if a.toNat ≥ b.toNat then 1 else 0 := by
  refine ⟨onlyRegs_advance_setRegFlag s x _ _, fun hx => ?difference, ?notBorrow⟩
  case difference => rw [State.reg_setRegFlag_self_of_ne _ _ _ hx, toNat_byte_sub]
  case notBorrow => rw [State.reg_setRegFlag_regF, notBorrowFlag_eq]

/-- Settles O37: the subtraction of VY from VX. -/
theorem subSetsNotBorrow : Obligations.SubSetsNotBorrow := by
  unfold Obligations.SubSetsNotBorrow
  exact ⟨selects_of_row fun c => by simp [opcodeRows, rowsXY],
    fun s x y => ⟨_, rfl, advance_setRegFlag_sub s x (s.reg x) (s.reg y)⟩⟩

/-- Settles O38: the subtraction of VX from VY. -/
theorem subnSetsNotBorrow : Obligations.SubnSetsNotBorrow := by
  unfold Obligations.SubnSetsNotBorrow
  exact ⟨selects_of_row fun c => by simp [opcodeRows, rowsXY],
    fun s x y => ⟨_, rfl, advance_setRegFlag_sub s x (s.reg y) (s.reg x)⟩⟩

/-! ### The shifts -/

/-- Settles O39: the shifted operand goes to VX, then the bit that the shift drops to VF. -/
theorem shiftsSetTheDroppedBit : Obligations.ShiftsSetTheDroppedBit := by
  unfold Obligations.ShiftsSetTheDroppedBit
  refine ⟨selects_of_row fun c => by simp [opcodeRows, rowsXY], selects_of_row fun c => by simp [opcodeRows, rowsXY],
    fun s x y src hsrc => ?_⟩
  rw [← State.shiftSrc_eq] at hsrc
  subst hsrc
  refine ⟨⟨_, rfl, onlyRegs_advance_setRegFlag s x _ _, fun hx => ?right, ?lowBit⟩,
    ⟨_, rfl, onlyRegs_advance_setRegFlag s x _ _, fun hx => ?left, ?highBit⟩⟩
  case right => rw [State.reg_setRegFlag_self_of_ne _ _ _ hx, toNat_byte_shiftRight_one]
  case lowBit => rw [State.reg_setRegFlag_regF, toNat_lowBitFlag]
  case left => rw [State.reg_setRegFlag_self_of_ne _ _ _ hx, toNat_byte_shiftLeft_one]
  case highBit => rw [State.reg_setRegFlag_regF, toNat_highBitFlag]

/-! ### The random byte -/

/-- CXNN leaves the next draw masked by NN in VX (R253). -/
theorem reg_rnd_self (s : State) (x : Reg) (nn : Byte) (n : Nat) :
    ({ rndWith (Config.rnd s.draws) x nn s with draws := n } : State).reg x = Config.rnd s.draws &&& nn :=
  State.reg_setReg_self s.advance x _

/-- Settles O40: the masks 0x00 and 0xFF are the zero and the unit of the bitwise AND. -/
theorem rndMasksTheDraw : Obligations.RndMasksTheDraw := by
  unfold Obligations.RndMasksTheDraw
  refine ⟨selects_of_row fun c => by simp [opcodeRows, rowsImm], fun s x nn =>
    ⟨_, rfl, rfl, (Frame.rnd s x nn _).regs, fun k _ => ?bits, fun h0 => ?zero, fun h1 => ?ones⟩⟩
  case bits => rw [reg_rnd_self, BitVec.getLsbD_and]
  case zero => rw [reg_rnd_self, h0]; exact BitVec.and_zero
  case ones => rw [reg_rnd_self, h1]; exact BitVec.and_allOnes

end Sys2Proof.Machine
end

section
/-! PROOFS. The index register and memory transfers (42_index_memory.md): the values of I (O41, O42), the stores of FX33
and FX55 and the loads of FX65 (O43 to O45), their faults and DXYN's (O46, O47), and the round trip of a dump and a load
(O48). -/

namespace Sys2Proof.Machine

open Sys2Proof.Claims

/-! ### The index register -/

/-- Settles O41: I is NNN, and a 12-bit value is at most 0xFFF. -/
theorem ldISetsIndex : Obligations.LdISetsIndex := by
  unfold Obligations.LdISetsIndex
  refine ⟨selects_of_row fun c => by simp [opcodeRows, rowsAddr], fun s nnn => ⟨_, rfl, rfl, toNat_zextAddr nnn, ?_⟩⟩
  exact (toNat_zextAddr nnn).trans_le (Nat.le_of_lt_succ nnn.isLt)

/-- Five times a byte fits 16 bits, so the product is not reduced (R283; D26). -/
theorem toNat_zextByte_mul_five (b : Byte) : (zextByte b * 5).toNat = b.toNat * 5 := by
  have hb := b.isLt
  have h5 : (5 : Word).toNat = 5 := rfl
  rw [BitVec.toNat_mul, toNat_zextByte, h5, Nat.mod_eq_of_lt (by omega)]

/-- Settles O42: the sum of FX1E is reduced to 16 bits, and the product of FX29 fits them. -/
theorem indexArithmetic : Obligations.IndexArithmetic := by
  unfold Obligations.IndexArithmetic
  refine ⟨selects_of_row fun c => by simp [opcodeRows, rowsX], selects_of_row fun c => by simp [opcodeRows, rowsX],
    fun s x => ⟨⟨_, rfl, rfl, ?sum⟩, ⟨_, rfl, rfl, toNat_zextByte_mul_five (s.reg x)⟩⟩⟩
  case sum => rw [BitVec.toNat_add, toNat_zextByte]

/-- The post-increment of FX55 and FX65 changes I and nothing else (R285, R286). -/
theorem State.bumpIndex_eq_withIndex (s : State) (x : Reg) : ∃ i, s.bumpIndex x = { s with i := i } := by
  unfold State.bumpIndex
  split
  · exact ⟨_, rfl⟩
  · exact ⟨s.i, rfl⟩

/-- The value of I after the post-increment (R285, R286; C8, D18). -/
theorem State.toNat_bumpIndex_i (s : State) (x : Reg) :
    (s.bumpIndex x).i.toNat = if s.cfg.ldstIncrementI then (s.i.toNat + x.val + 1) % 65536 else s.i.toNat := by
  unfold State.bumpIndex
  split
  · rw [BitVec.toNat_add, BitVec.toNat_ofNat, Nat.add_mod_mod, Nat.add_assoc]
  · rfl

/-! ### Blocks of memory -/

/-- The store of a block leaves at the index of each address the byte given for it, or the old byte where the policy
ignores the store (R91). -/
theorem State.stored_of_writeBlock {s t : State} {base a k : Nat} {bytes : List Byte} {b : Byte}
    (hs : Memory.sorted s.mem) (ht : s.writeBlock base bytes = .ok t) (hn : bytes.length ≤ 4096)
    (ha : mapAddr s.cfg (base + k) = some a) (hb : bytes[k]? = some b) : Stored s t a b := by
  obtain ⟨as, has, -, rfl⟩ := State.writeBlock_eq_ok ht
  obtain ⟨hlen, hmap⟩ := (mapBlock_eq_some_iff _ _ _ _).mp has
  have hk : k < bytes.length := (List.getElem?_eq_some_iff.mp hb).1
  have hz : (a, b) ∈ as.zip bytes :=
    List.mem_of_getElem? (List.getElem?_zip_eq_some.mpr ⟨(hmap k hk).symm.trans ha, hb⟩)
  exact Memory.read_stores_of_mem hs (mapBlock_nodup has hn) hz hlen.le

/-- The store of a block whose addresses `f` maps keeps every other byte. -/
theorem State.byteAt_writeBlock_of_ne {s t : State} {base a : Nat} {bytes : List Byte} {f : Nat → Nat}
    (ht : s.writeBlock base bytes = .ok t) (hf : Mapped s.cfg base bytes.length f) (ha : ∀ k < bytes.length, a ≠ f k) :
    t.byteAt a = s.byteAt a :=
  State.byteAt_writeBlock_of_not_mapped ht fun k hk h => ha k hk (Option.some.inj (h.symm.trans (hf k hk)))

/-- The store of a block with an address that does not exist is refused (R90). -/
theorem State.writeBlock_of_unmapped {s : State} {base k : Nat} {bytes : List Byte} (hk : k < bytes.length)
    (h : mapAddr s.cfg (base + k) = none) : s.writeBlock base bytes = .error .memBounds := by
  simp only [State.writeBlock, mapBlock_of_none hk h]

/-- The store of a block that meets the font under FONT_WRITE_POLICY = fault is refused (R91; D4). -/
theorem State.writeBlock_of_font {s : State} {base k : Nat} {bytes : List Byte} {f : Nat → Nat}
    (hf : Mapped s.cfg base bytes.length f) (hp : s.cfg.fontWritePolicy = .fault) (hk : k < bytes.length)
    (hfont : f k < fontEnd) : s.writeBlock base bytes = .error .fontWrite := by
  have hmem : f k ∈ (List.range bytes.length).map f := List.mem_map_of_mem (List.mem_range.mpr hk)
  have hfault := (fontFault_eq_true_iff s.cfg _).mpr ⟨hp, f k, hmem, hfont⟩
  simp only [State.writeBlock, mapBlock_of_forall hf, hfault, if_true]

/-- The read of a block whose addresses `f` maps answers the bytes at the indexes `f` gives, in order (R90). -/
theorem State.exists_readBlock_of_mapped {s : State} {base n : Nat} {f : Nat → Nat} (hf : Mapped s.cfg base n f) :
    ∃ bytes, s.readBlock base n = .ok bytes ∧ ∀ k < n, bytes[k]? = some (s.byteAt (f k)) :=
  ⟨_, State.readBlock_of_mapped hf, fun k hk => by simp [hk]⟩

/-- The read of a block with an address that does not exist is refused (R90). -/
theorem State.readBlock_of_unmapped {s : State} {base n k : Nat} (hk : k < n) (h : mapAddr s.cfg (base + k) = none) :
    s.readBlock base n = .error .memBounds := by
  simp only [State.readBlock, mapBlock_of_none hk h]

/-! ### The transfers as the ends of their block operations -/

section
variable {s : State} {x y : Reg}

theorem exec_ldB_of_writeBlock {e : Except FaultCause State}
    (h : s.advance.writeBlock s.indexBase (decimalDigits (s.reg x)) = e) : exec (.ldB x) s = complete s e :=
  congrArg (complete s) h

theorem exec_stRegs_of_writeBlock {e : Except FaultCause State}
    (h : s.advance.writeBlock s.indexBase (s.regsUpTo x) = e) :
    exec (.stRegs x) s = complete s (e.map (State.bumpIndex · x)) := by
  rw [← h]; rfl

theorem exec_ldRegs_of_readBlock {e : Except FaultCause (List Byte)}
    (h : s.readBlock s.indexBase (x.val + 1) = e) :
    exec (.ldRegs x) s = complete s (e.map fun bytes => (s.advance.loadRegs bytes).bumpIndex x) := by
  rw [← h]; rfl

theorem exec_drw_of_readBlock_error {n : Nibble} {c : FaultCause}
    (h : s.readBlock s.indexBase n.toNat = .error c) : exec (.drw x y n) s = .next (s.takeFault c) := by
  rw [exec, execDrw, h]; rfl

end

/-! ### The stores and the loads -/

/-- Settles O43: the block that FX33 stores is the three digits of VX. -/
theorem ldBStoresDigits : Obligations.LdBStoresDigits := by
  unfold Obligations.LdBStoresDigits
  refine ⟨selects_of_row fun c => by simp [opcodeRows, rowsX], fun s x f hinv hf hallow => ?_⟩
  obtain ⟨t, hw⟩ : ∃ t, s.advance.writeBlock s.indexBase (decimalDigits (s.reg x)) = .ok t :=
    ⟨_, State.writeBlock_of_mapped hf hallow⟩
  have hstored {k : Nat} {b : Byte} (hk : k < 3) (hb : (decimalDigits (s.reg x))[k]? = some b) : Stored s t (f k) b :=
    State.stored_of_writeBlock (s := s.advance) hinv.mem.1 hw (by simp [decimalDigits]) (hf k hk) hb
  have hx := (s.reg x).isLt
  refine ⟨t, exec_ldB_of_writeBlock hw, State.eq_of_writeBlock hw,
    ⟨_, _, _, hstored (by decide) rfl, hstored (by decide) rfl, hstored (by decide) rfl, ?hundreds, ?tens, ?ones⟩,
    fun a ha => State.byteAt_writeBlock_of_ne (s := s.advance) hw hf ha⟩
  case hundreds | tens | ones => exact Nat.mod_eq_of_lt (by omega)

/-- Settles O44: the block that FX55 stores is V0..VX, and I is incremented after it. -/
theorem stRegsStoresRegisters : Obligations.StRegsStoresRegisters := by
  unfold Obligations.StRegsStoresRegisters
  refine ⟨selects_of_row fun c => by simp [opcodeRows, rowsX], fun s x f hinv hf hallow => ?_⟩
  have hlen := s.length_regsUpTo x
  rw [← hlen] at hf hallow
  obtain ⟨m, hw⟩ : ∃ m, s.advance.writeBlock s.indexBase (s.regsUpTo x) = .ok { s.advance with mem := m } :=
    ⟨_, State.writeBlock_of_mapped hf hallow⟩
  refine ⟨State.bumpIndex { s.advance with mem := m } x, exec_stRegs_of_writeBlock hw, ?frame, fun k hk => ?stored,
    fun a ha => ?kept, State.toNat_bumpIndex_i _ x⟩
  case frame =>
    obtain ⟨i, hi⟩ := State.bumpIndex_eq_withIndex { s.advance with mem := m } x
    rw [hi]
    rfl
  case stored =>
    have hk' : k.val < (s.regsUpTo x).length := hlen ▸ Nat.lt_succ_of_le hk
    rw [Stored, State.byteAt_bumpIndex]
    exact State.stored_of_writeBlock (s := s.advance) hinv.mem.1 hw (by omega) (hf k.val hk') (s.getElem?_regsUpTo hk)
  case kept =>
    rw [State.byteAt_bumpIndex]
    exact State.byteAt_writeBlock_of_ne (s := s.advance) hw hf fun k hk => ha k (by omega)

/-- Settles O45: the block that FX65 reads replaces V0..VX, and I is incremented after it. -/
theorem ldRegsLoadsRegisters : Obligations.LdRegsLoadsRegisters := by
  unfold Obligations.LdRegsLoadsRegisters
  refine ⟨selects_of_row fun c => by simp [opcodeRows, rowsX], fun s x f hf => ?_⟩
  obtain ⟨bytes, hr, hbytes⟩ := State.exists_readBlock_of_mapped hf
  refine ⟨(s.advance.loadRegs bytes).bumpIndex x, exec_ldRegs_of_readBlock hr, ?frame, fun k hk => ?loaded,
    fun k hk => ?kept, State.toNat_bumpIndex_i _ x⟩
  case frame =>
    obtain ⟨i, hi⟩ := (s.advance.loadRegs bytes).bumpIndex_eq_withIndex x
    simp [hi]
  case loaded =>
    rw [State.reg_bumpIndex, State.reg_loadRegs, hbytes k.val (Nat.lt_succ_of_le hk), Option.getD_some]
  case kept =>
    have hle : bytes.length ≤ k.val := (State.length_of_readBlock hr).trans_le hk
    rw [State.reg_bumpIndex, State.reg_loadRegs_of_length_le _ hle, State.reg_advance]

/-- Settles O48: a dump of which no byte is ignored leaves V0..VX where the load reads them. -/
theorem dumpThenLoadRoundTrips : Obligations.DumpThenLoadRoundTrips := by
  unfold Obligations.DumpThenLoadRoundTrips
  intro s t u x w f hinv hf hallow hignore ht hu k hk
  obtain ⟨t', ht', hframe, hstored, -, -⟩ := stRegsStoresRegisters.2 s x f hinv hf hallow
  obtain rfl : t' = t := Host.Outcome.next.inj (ht'.symm.trans ht)
  have hcfg : t'.cfg = s.cfg := by rw [hframe]
  have hdumped : t'.byteAt (f k.val) = s.reg k := by
    have hkept : ¬ (s.cfg.fontWritePolicy = .ignore ∧ f k.val < fontEnd) := fun ⟨hp, hlt⟩ =>
      absurd hlt (Nat.not_lt.mpr (hignore hp k.val hk))
    exact (hstored k hk).trans (if_neg hkept)
  obtain ⟨u', hu', -, hloaded, -, -⟩ := ldRegsLoadsRegisters.2 { t' with i := s.i, v := w } x f (hcfg ▸ hf)
  obtain rfl : u' = u := Host.Outcome.next.inj (hu'.symm.trans hu)
  exact (hloaded k hk).trans hdumped

/-! ### The faults -/

/-- Settles O46: the store of the block is refused, and FX33 and FX55 end in the refusal's fault entry. -/
theorem storeFaults : Obligations.StoreFaults := by
  unfold Obligations.StoreFaults
  intro s x
  have hlt {k : Nat} (hk : k ≤ x.val) : k < (s.regsUpTo x).length := s.length_regsUpTo x ▸ Nat.lt_succ_of_le hk
  refine ⟨fun ⟨k, hk, h⟩ => ?digitsBounds, fun ⟨k, hk, h⟩ => ?regsBounds,
    fun f hp => ⟨fun hf ⟨k, hk, h⟩ => ?digitsFont, fun hf ⟨k, hk, h⟩ => ?regsFont⟩⟩
  case digitsBounds => exact exec_ldB_of_writeBlock (State.writeBlock_of_unmapped (s := s.advance) hk h)
  case regsBounds => exact exec_stRegs_of_writeBlock (State.writeBlock_of_unmapped (s := s.advance) (hlt hk) h)
  case digitsFont => exact exec_ldB_of_writeBlock (State.writeBlock_of_font (s := s.advance) hf hp hk h)
  case regsFont =>
    rw [← s.length_regsUpTo x] at hf
    exact exec_stRegs_of_writeBlock (State.writeBlock_of_font (s := s.advance) hf hp (hlt hk) h)

/-- Settles O47: the read of the block is refused, and FX65 and DXYN end in MEM_BOUNDS. -/
theorem readFaults : Obligations.ReadFaults := by
  unfold Obligations.ReadFaults
  intro s x y n
  refine ⟨fun ⟨k, hk, h⟩ => ?load, fun ⟨k, hk, h⟩ => ?draw⟩
  case load => exact exec_ldRegs_of_readBlock (State.readBlock_of_unmapped (Nat.lt_succ_of_le hk) h)
  case draw => exact exec_drw_of_readBlock_error (State.readBlock_of_unmapped hk h)

end Sys2Proof.Machine
end

section
/-! PROOFS. The display (43_display.md): the clear (O49), and the draw as the visits of the set bits of its sprite, one
after another: the pixels it inverts (O50), the collision it reports (O51), its own inverse (O52) and the draw of no
rows (O53). -/

namespace Sys2Proof.Machine

open Sys2Proof.Claims

/-! ### The clear -/

/-- Settles O49: the cleared framebuffer is a grid of false pixels. -/
theorem clsClearsEveryPixel : Obligations.ClsClearsEveryPixel := by
  unfold Obligations.ClsClearsEveryPixel
  exact ⟨selects_of_row fun c => by simp [opcodeRows, rowsAddr],
    fun s => ⟨_, rfl, rfl, gridOf_clearFb s.cfg, pixelOf_clearFb s.cfg⟩⟩

/-! ### A draw as a blit of visits -/

section
variable {s : State} {x y : Reg}

/-- The pixels that DXYN visits for the sprite `bytes`, in order, from the origin that VX and VY give (R322). -/
def State.visits (s : State) (x y : Reg) (bytes : List Byte) : List (Nat × Nat) :=
  spritePixels s.cfg ((s.reg x).toNat % s.cfg.width) ((s.reg y).toNat % s.cfg.height) bytes

/-- The state in which DXYN ends when its sprite is `bytes` (R322, R323). -/
def State.drawn (s : State) (x y : Reg) (bytes : List Byte) : State :=
  { s.advance with fb := (s.drawSprite x y bytes).1 }.setReg regF (flagByte (s.drawSprite x y bytes).2)

theorem State.drawSprite_eq_blit (s : State) (x y : Reg) (bytes : List Byte) :
    s.drawSprite x y bytes = blit (s.visits x y bytes) (s.fb, false) := rfl

@[simp] theorem State.drawn_fb (s : State) (x y : Reg) (bytes : List Byte) :
    (s.drawn x y bytes).fb = (s.drawSprite x y bytes).1 := rfl

theorem State.drawn_eq (s : State) (x y : Reg) (bytes : List Byte) :
    s.drawn x y bytes = { s with pc := s.pc + 2, fb := (s.drawn x y bytes).fb, v := (s.drawn x y bytes).v } := rfl

theorem State.reg_drawn_of_ne (s : State) (bytes : List Byte) {r : Reg} (h : r ≠ 15) :
    (s.drawn x y bytes).reg r = s.reg r := State.reg_setReg_of_ne _ _ h

theorem State.reg_drawn_regF (s : State) (x y : Reg) (bytes : List Byte) :
    (s.drawn x y bytes).reg 15 = flagByte (s.drawSprite x y bytes).2 := State.reg_setReg_self _ regF _

theorem exec_drw_of_readBlock {n : Nibble} {bytes : List Byte} (h : s.readBlock s.indexBase n.toNat = .ok bytes) :
    exec (.drw x y n) s = .next (s.drawn x y bytes) := by
  rw [exec, execDrw, h]; rfl

theorem onGrid_visits (h : s.Inv) (bytes : List Byte) : OnGrid s.cfg (s.visits x y bytes) :=
  onGrid_spritePixels h.cfg _ _ bytes

/-- A draw inverts each pixel once for each of its visits (R326). -/
theorem State.pixel_drawn (h : s.Inv) (bytes : List Byte) (r c : Nat) :
    (s.drawn x y bytes).pixel r c = (s.pixel r c ^^ oddVisits (s.visits x y bytes) r c) :=
  pixelOf_blit h.grid (onGrid_visits h bytes) false r c

end

/-- Settles O53: a sprite of no rows is read without an address and visits no pixel. -/
theorem drawOfNoRows : Obligations.DrawOfNoRows := by
  unfold Obligations.DrawOfNoRows
  exact fun s x y => ⟨s.drawn x y [], exec_drw_of_readBlock rfl, ⟨rfl, fun _ hr => s.reg_drawn_of_ne [] hr⟩,
    s.reg_drawn_regF x y []⟩

/-! ### Drawing twice -/

/-- Two grids of the same size with the same pixels are equal. -/
theorem GridOf.ext {c : Config} {fb fb' : List (List Bool)} (h : GridOf c fb) (h' : GridOf c fb')
    (hp : ∀ r k, pixelOf fb r k = pixelOf fb' r k) : fb = fb' := by
  refine List.ext_getElem (h.1.trans h'.1.symm) fun r hr hr' => ?_
  have hrow := h.2 _ (List.getElem_mem hr)
  have hrow' := h'.2 _ (List.getElem_mem hr')
  refine List.ext_getElem (hrow.trans hrow'.symm) fun k hk hk' => ?_
  simpa [pixelOf, hr, hr', hk, hk'] using hp r k

/-- A second blit of the same pixels undoes the first: each pixel is inverted an even number of times (R326). -/
theorem blit_blit {c : Config} {fb : List (List Bool)} (h : GridOf c fb) {ps : List (Nat × Nat)} (hp : OnGrid c ps)
    (hit hit' : Bool) : (blit ps ((blit ps (fb, hit)).1, hit')).1 = fb := by
  have h₁ := gridOf_blit h ps hit
  refine GridOf.ext (gridOf_blit h₁ ps hit') h fun r k => ?_
  rw [pixelOf_blit h₁ hp, pixelOf_blit h hp, Bool.xor_assoc, Bool.xor_self, Bool.xor_false]

/-- Reading a block depends on the memory and the configuration alone. -/
theorem State.readBlock_congr {s t : State} (hm : t.mem = s.mem) (hc : t.cfg = s.cfg) (base n : Nat) :
    t.readBlock base n = s.readBlock base n := by
  have hb : t.byteAt = s.byteAt := funext (State.byteAt_congr hm hc)
  simp only [State.readBlock, hb, hc]

/-- A draw of VX and VY other than VF leaves the visits of the next draw as they were (D27). -/
theorem State.visits_drawn (s : State) {x y : Reg} (hx : x ≠ 15) (hy : y ≠ 15) (bytes : List Byte) :
    (s.drawn x y bytes).visits x y bytes = s.visits x y bytes := by
  simp only [State.visits, s.reg_drawn_of_ne bytes hx, s.reg_drawn_of_ne bytes hy]
  rfl

/-- Settles O52: both draws fault in the same read, or the second blits the same pixels again. -/
theorem drawTwiceRestores : Obligations.DrawTwiceRestores := by
  unfold Obligations.DrawTwiceRestores
  intro s t u x y n hx hy hinv ht hu
  cases hb : s.readBlock s.indexBase n.toNat with
  | error c =>
    rw [exec_drw_of_readBlock_error hb] at ht
    cases ht
    have hb' : (s.takeFault c).readBlock (s.takeFault c).indexBase n.toNat = .error c :=
      (State.readBlock_congr rfl rfl _ _).trans hb
    rw [exec_drw_of_readBlock_error hb'] at hu
    cases hu
    rfl
  | ok bytes =>
    rw [exec_drw_of_readBlock hb] at ht
    cases ht
    have hb' : (s.drawn x y bytes).readBlock (s.drawn x y bytes).indexBase n.toNat = .ok bytes :=
      (State.readBlock_congr rfl rfl _ _).trans hb
    rw [exec_drw_of_readBlock hb'] at hu
    cases hu
    rw [State.drawn_fb, State.drawSprite_eq_blit, s.visits_drawn hx hy]
    exact blit_blit hinv.grid (onGrid_visits hinv bytes) false false

/-! ### The bits of a sprite in the order of their processing -/

/-- The rows and bits (k, j) of a sprite of `n` rows, in the order of R322's loops. -/
def spriteOffsets (n : Nat) : List (Nat × Nat) :=
  (List.range n).flatMap fun k => (List.range 8).map fun j => (k, j)

/-- Bit (k', j') is processed before bit (k, j) (R322). -/
def bitBefore (k j k' j' : Nat) : Bool := decide (k' < k) || (k' == k && decide (j' < j))

theorem mem_spriteOffsets (n : Nat) (p : Nat × Nat) : p ∈ spriteOffsets n ↔ p.1 < n ∧ p.2 < 8 := by
  simp [spriteOffsets, Prod.ext_iff]

theorem bitBefore_eq_true_iff (k j k' j' : Nat) : bitBefore k j k' j' = true ↔ k' < k ∨ k' = k ∧ j' < j := by
  simp [bitBefore]

theorem pairwise_spriteOffsets (n : Nat) :
    (spriteOffsets n).Pairwise fun p q => bitBefore q.1 q.2 p.1 p.2 = true := by
  simp only [bitBefore_eq_true_iff]
  refine List.pairwise_flatMap.mpr ⟨fun k _ => List.pairwise_map.mpr ?bits, List.pairwise_lt_range.imp ?rows⟩
  case bits => exact List.pairwise_lt_range.imp fun h => .inr ⟨rfl, h⟩
  case rows =>
    intro k k' hk p hp q hq
    obtain ⟨_, -, rfl⟩ := List.mem_map.mp hp
    obtain ⟨_, -, rfl⟩ := List.mem_map.mp hq
    exact .inl hk

/-- Where a bit splits the sprite, the bits processed before it are those listed before it. -/
theorem filter_bitBefore_of_split {n : Nat} {pre post : List (Nat × Nat)} {q : Nat × Nat}
    (h : spriteOffsets n = pre ++ q :: post) : (spriteOffsets n).filter (fun p => bitBefore q.1 q.2 p.1 p.2) = pre := by
  have hpw := pairwise_spriteOffsets n
  rw [h] at hpw
  obtain ⟨-, hpost, hpre⟩ := List.pairwise_append.mp hpw
  have hlater : ∀ p ∈ q :: post, ¬ bitBefore q.1 q.2 p.1 p.2 = true := by
    intro p hp
    rw [bitBefore_eq_true_iff]
    rcases List.mem_cons.mp hp with rfl | hp
    · omega
    · have := (bitBefore_eq_true_iff _ _ _ _).mp ((List.pairwise_cons.mp hpost).1 p hp)
      omega
  rw [h, List.filter_append, List.filter_eq_self.mpr fun p hp => hpre p hp q List.mem_cons_self,
    List.filter_eq_nil_iff.mpr hlater, List.append_nil]

/-! ### The visits of the set bits among given bits -/

section
variable (s : State) (x y : Reg) (f : Nat → Nat)

/-- The pixels on which the set bits among `ps` fall (R322, R324). -/
def bitVisits (ps : List (Nat × Nat)) : List (Nat × Nat) :=
  (ps.filter fun p => spriteBit s f p.1 p.2).map fun p => (drawRow s y p.1, drawCol s x p.2)

/-- The visits of a draw whose sprite bytes `f` maps are those of the set bits of its rows. -/
theorem visits_eq_bitVisits (n : Nat) :
    s.visits x y ((List.range n).map fun k => s.byteAt (f k)) = bitVisits s x y f (spriteOffsets n) := by
  have h := spritePixels_range' s.cfg ((s.reg x).toNat % s.cfg.width) ((s.reg y).toNat % s.cfg.height) 0 n
    fun k => s.byteAt (f k)
  rw [← List.range_eq_range', Nat.add_zero] at h
  rw [State.visits, h, bitVisits, spriteOffsets, List.filter_flatMap, List.map_flatMap]
  simp only [List.filter_map, List.map_map]
  rfl

/-- The hits of a pixel are its visits by the bits that are counted. -/
theorem hits_eq_count (n : Nat) (before : Nat → Nat → Bool) (r c : Nat) : hits s x y n f before r c =
    (bitVisits s x y f ((spriteOffsets n).filter fun p => before p.1 p.2)).count (r, c) := by
  rw [bitVisits, List.count, List.countP_map, List.countP_filter, List.countP_filter]
  refine List.countP_congr fun p _ => ?_
  simp only [Bool.and_eq_true, beq_iff_eq, Function.comp_apply, Prod.mk.injEq]
  tauto

theorem hits_true_eq_count (n r c : Nat) :
    hits s x y n f (fun _ _ => true) r c = (bitVisits s x y f (spriteOffsets n)).count (r, c) := by
  rw [hits_eq_count, List.filter_true]

/-- The hits before the bit that splits the sprite are the visits of the bits listed before it. -/
theorem hits_before_eq_count {n : Nat} {pre post : List (Nat × Nat)} {q : Nat × Nat}
    (h : spriteOffsets n = pre ++ q :: post) (r c : Nat) :
    hits s x y n f (bitBefore q.1 q.2) r c = (bitVisits s x y f pre).count (r, c) := by
  rw [hits_eq_count, filter_bitBefore_of_split h]

/-- A visit splits the visits of the bits `ps` exactly where a set bit splits `ps`. -/
theorem bitVisits_eq_append_cons_iff (ps pre post : List (Nat × Nat)) (v : Nat × Nat) :
    bitVisits s x y f ps = pre ++ v :: post ↔ ∃ ps₁ q ps₂, ps = ps₁ ++ q :: ps₂ ∧ spriteBit s f q.1 q.2 = true ∧
      bitVisits s x y f ps₁ = pre ∧ (drawRow s y q.1, drawCol s x q.2) = v ∧ bitVisits s x y f ps₂ = post := by
  constructor
  · intro h
    obtain ⟨l₁, l₂, hl, rfl, h₂⟩ := List.map_eq_append_iff.mp h
    obtain ⟨q, l₃, rfl, rfl, rfl⟩ := List.map_eq_cons_iff.mp h₂
    obtain ⟨ps₁, m, rfl, rfl, hm⟩ := List.filter_eq_append_iff.mp hl
    obtain ⟨skip, ps₂, rfl, hskip, hq, rfl⟩ := List.filter_eq_cons_iff.mp hm
    refine ⟨ps₁ ++ skip, q, ps₂, (List.append_assoc ..).symm, hq, ?_, rfl, rfl⟩
    rw [bitVisits, List.filter_append, List.filter_eq_nil_iff.mpr hskip, List.append_nil]
  · rintro ⟨ps₁, q, ps₂, rfl, hq, rfl, rfl, rfl⟩
    simp [bitVisits, hq]

end

/-! ### The pixels a draw inverts -/

/-- Settles O50: the visits of a pixel are the set bits that fall on it. -/
theorem drawXorsWithWraparound : Obligations.DrawXorsWithWraparound := by
  unfold Obligations.DrawXorsWithWraparound
  refine ⟨selects_of_row fun c => by simp [opcodeRows, rowsImm], fun s x y n f hinv hf => ?_⟩
  refine ⟨_, exec_drw_of_readBlock (State.readBlock_of_mapped hf), State.drawn_eq ..,
    State.gridOf_drawSprite hinv.grid .., fun r hr => s.reg_drawn_of_ne _ hr, fun r _ c _ => ?_⟩
  rw [State.pixel_drawn hinv, visits_eq_bitVisits, hits_true_eq_count]
  rfl

/-! ### The collision a draw reports -/

section
variable {s : State} {x y : Reg} {n : Nat} {f : Nat → Nat}

/-- A draw reports a collision exactly when a set bit meets a lit pixel at its visit (R323). -/
theorem drawSprite_hit_iff (h : s.Inv) (x y : Reg) (n : Nat) (f : Nat → Nat) :
    (s.drawSprite x y ((List.range n).map fun k => s.byteAt (f k))).2 = true ↔ Collides s x y n f := by
  rw [State.drawSprite_eq_blit, blit_hit_iff h.grid (onGrid_visits h _), visits_eq_bitVisits]
  constructor
  · rintro (hfalse | ⟨pre, v, post, hsplit, hlit⟩)
    · cases hfalse
    · obtain ⟨ps₁, q, ps₂, hps, hq, rfl, rfl, rfl⟩ := (bitVisits_eq_append_cons_iff ..).mp hsplit
      obtain ⟨hk, hj⟩ := (mem_spriteOffsets n q).mp (by rw [hps]; exact List.mem_append_cons_self)
      refine ⟨q.1, hk, q.2, hj, hq, ?_⟩
      rwa [oddVisits, ← hits_before_eq_count s x y f hps] at hlit
  · rintro ⟨k, hk, j, hj, hq, hlit⟩
    obtain ⟨ps₁, ps₂, hps⟩ := List.append_of_mem ((mem_spriteOffsets n (k, j)).mpr ⟨hk, hj⟩)
    refine .inr ⟨_, _, _, (bitVisits_eq_append_cons_iff ..).mpr ⟨ps₁, (k, j), ps₂, hps, hq, rfl, rfl, rfl⟩, ?_⟩
    rwa [oddVisits, ← hits_before_eq_count s x y f hps]

/-- Two offsets below `m` from one origin that agree modulo `m` are equal. -/
theorem eq_of_add_mod_eq {m o a b : Nat} (ha : a < m) (hb : b < m) (h : (o + a) % m = (o + b) % m) : a = b :=
  (Nat.ModEq.add_left_cancel' o h).eq_of_lt_of_lt ha hb

/-- On a screen of at least 8 columns and as many rows as the sprite has, no pixel is visited twice, so none was hit
before a bit falls on it (R326). -/
theorem hits_before_eq_zero (hW : 8 ≤ s.cfg.width) (hH : n ≤ s.cfg.height) {k j : Nat} (hk : k < n) (hj : j < 8) :
    hits s x y n f (bitBefore k j) (drawRow s y k) (drawCol s x j) = 0 := by
  refine List.countP_eq_zero.mpr fun p hp hhit => ?_
  obtain ⟨hpk, hpj⟩ := (mem_spriteOffsets n p).mp hp
  simp only [Bool.and_eq_true, beq_iff_eq] at hhit
  obtain ⟨⟨⟨-, hbefore⟩, hrow⟩, hcol⟩ := hhit
  have hrows : p.1 = k := eq_of_add_mod_eq (hpk.trans_le hH) (hk.trans_le hH) hrow
  have hcols : p.2 = j := eq_of_add_mod_eq (hpj.trans_le hW) (hj.trans_le hW) hcol
  have := (bitBefore_eq_true_iff _ _ _ _).mp hbefore
  omega

/-- On such a screen a bit collides where its pixel was lit before the draw (R326). -/
theorem collides_iff_lit (hW : 8 ≤ s.cfg.width) (hH : n ≤ s.cfg.height) :
    Collides s x y n f ↔
      ∃ k < n, ∃ j < 8, spriteBit s f k j = true ∧ s.pixel (drawRow s y k) (drawCol s x j) = true := by
  have hpixel {k j : Nat} (hk : k < n) (hj : j < 8) : (s.pixel (drawRow s y k) (drawCol s x j) ^^
      decide (hits s x y n f (bitBefore k j) (drawRow s y k) (drawCol s x j) % 2 = 1)) =
        s.pixel (drawRow s y k) (drawCol s x j) := by
    rw [hits_before_eq_zero hW hH hk hj]; exact Bool.xor_false _
  constructor
  · rintro ⟨k, hk, j, hj, hbit, hlit⟩
    exact ⟨k, hk, j, hj, hbit, (hpixel hk hj).symm.trans hlit⟩
  · rintro ⟨k, hk, j, hj, hbit, hlit⟩
    exact ⟨k, hk, j, hj, hbit, (hpixel hk hj).trans hlit⟩

end

/-- Settles O51: VF ends as the collision of the blit. -/
theorem drawReportsCollision : Obligations.DrawReportsCollision := by
  unfold Obligations.DrawReportsCollision
  intro s x y n f hinv hf
  have hhit := drawSprite_hit_iff hinv x y n.toNat f
  refine ⟨⟨_, exec_drw_of_readBlock (State.readBlock_of_mapped hf), fun hc => ?collision, fun hc => ?none⟩,
    collides_iff_lit⟩
  case collision => rw [State.reg_drawn_regF, hhit.mpr hc]; rfl
  case none => rw [State.reg_drawn_regF, Bool.eq_false_iff.mpr (mt hhit.mp hc)]; rfl

end Sys2Proof.Machine
end

section
/-! PROOFS. Keys and timers (44_timers_input.md): the cases of FX0A (O55), the delay timer and the instructions that keep
it (O56), the sound timer and its output (O57), and the skips on a key (O54). -/

namespace Sys2Proof.Machine

open Sys2Proof.Claims

/-! ### The wait for a key -/

/-- FX0A's rewind takes the fetch's advance back (R363; C6). -/
@[simp] theorem State.block_advance (s : State) : s.advance.block = s := by
  simp [State.block, State.advance]

/-- Settles O55, by the four cases of FX0A: the three that wait rewind to the state itself, or to it with the key
recorded. -/
theorem keyWaitAutomaton : Obligations.KeyWaitAutomaton := by
  unfold Obligations.KeyWaitAutomaton
  refine ⟨selects_of_row fun c => by simp [opcodeRows, rowsX], fun s x k =>
    ⟨fun hw hnone => ?noPress, fun hw hk hlow => ?press, fun hw hk => ?held, fun hw hk => ?release⟩⟩
  case noPress =>
    rw [exec, execLdK_of_no_press x hw ((firstPressed_eq_none_iff s.keys).mpr hnone), State.block_advance]
  case press =>
    rw [exec, execLdK_of_press x hw ((firstPressed_eq_some_iff s.keys k).mpr ⟨hk, hlow⟩), State.block_advance]
  case held => rw [exec, execLdK_of_held x hw hk, State.block_advance]
  case release =>
    refine ⟨_, execLdK_of_release x hw hk, rfl, ?number, fun r hr => s.advance.reg_setReg_of_ne _ hr⟩
    case number =>
      have hreg := State.reg_setReg_self s.advance x (BitVec.ofNat 8 k.val)
      exact (congrArg BitVec.toNat hreg).trans ((BitVec.toNat_ofNat ..).trans (Nat.mod_eq_of_lt (by omega)))

/-! ### The call stack changes only pc, the entries and SP -/

/-- A pop that answers a state changes pc and SP and nothing else (R38, R39). -/
theorem State.eq_of_popPc {s t : State} (ht : s.popPc = .ok t) : t = { s with pc := t.pc, sp := t.sp } := by
  cases hn : s.sp.val with
  | zero => rw [s.popPc_of_zero hn] at ht; cases ht
  | succ n =>
    obtain ⟨u, hu, hframe, -, -⟩ := s.popPc_of_pos n hn
    obtain rfl : u = t := Except.ok.inj (hu.symm.trans ht)
    exact hframe

/-- A push that answers a state changes the stack and nothing else (R38). -/
theorem State.eq_of_push {s t : State} {w : Word} (ht : s.push w = .ok t) :
    t = { s with stack := t.stack, sp := t.sp } := by
  by_cases h : s.sp.val < stackDepth
  · rw [s.push_of_lt w h] at ht; cases ht; rfl
  · rw [s.push_of_full w h] at ht; cases ht

/-! ### Frames of the control operations and of FX0A -/

section
variable {w : Touched} {s t u : State}

/-- No frame names pc. -/
theorem Frame.withPc (h : Frame w s t) (pc : Word) : Frame w s { t with pc := pc } := { h with }

theorem Frame.withStack (h : Frame w s t) (hw : w.stack) (stack : Vector Word 12) (sp : Fin 13) :
    Frame w s { t with stack := stack, sp := sp } :=
  { h with stack := fun hn => absurd hw hn }

theorem Frame.withKeyWait (h : Frame w s t) (hw : w.wait) (k : KeyWait) : Frame w s { t with keyWait := k } :=
  { h with wait := fun hn => absurd hw hn }

theorem Frame.skipIf (h : Frame w s t) (cond : Bool) : Frame w s (t.skipIf cond) := by
  cases cond with
  | false => exact h
  | true => exact h.withPc _

theorem Frame.popPc (h : Frame w s u) (hw : w.stack) (ht : u.popPc = .ok t) : Frame w s t := by
  rw [State.eq_of_popPc ht]
  exact (h.withStack hw u.stack t.sp).withPc t.pc

theorem Frame.push (h : Frame w s u) (hw : w.stack) {a : Word} (ht : u.push a = .ok t) : Frame w s t := by
  rw [State.eq_of_push ht]
  exact h.withStack hw t.stack t.sp

/-- FX0A touches VX and its wait state alone (R363). -/
theorem Frame.execLdK {x : Reg} (ht : execLdK x s = .next t) : Frame { regs := (· = x), wait := True } s t := by
  have adv := Frame.advance { regs := (· = x), wait := True } s
  cases hw : s.keyWait with
  | idle =>
    cases hk : firstPressed s.keys with
    | none => rw [execLdK_of_no_press x hw hk] at ht; cases ht; exact adv.withPc _
    | some k => rw [execLdK_of_press x hw hk] at ht; cases ht; exact (adv.withPc _).withKeyWait trivial _
  | awaitingRelease k =>
    cases hk : s.keys[k] with
    | true => rw [execLdK_of_held x hw hk] at ht; cases ht; exact adv.withPc _
    | false => rw [execLdK_of_release x hw hk] at ht; cases ht; exact (adv.setReg rfl _).withKeyWait trivial _

end

/-! ### The delay timer -/

/-- No instruction but FX15 writes DT: it lies outside the frame of every other one (R362, R364). -/
theorem exec_keeps_dt {i : Instr} {s t : State} (hi : ∀ x, i ≠ .ldDt x) (ht : exec i s = .next t) : t.dt = s.dt := by
  have adv := Frame.advance { stack := True, fault := True } s
  cases i with
  | ldDt x => exact absurd rfl (hi x)
  | ldImm x y | addImm x y | ldReg x y | or x y | and x y | xor x y => exact (aluFrame _ s t _ rfl ht).delay id
  | addReg x y | sub x y | shr x y | subn x y | shl x y => exact (aluFrame _ s t _ rfl ht).delay id
  | rnd x nn | ldVxDt x => exact (aluFrame _ s t _ rfl ht).delay id
  | cls | drw x y n | ldI nnn | addI x | ldF x => exact (memoryDisplayFrame _ s t _ rfl ht).delay id
  | ldB x | stRegs x | ldRegs x => exact (memoryDisplayFrame _ s t _ rfl ht).delay id
  | ret => exact (Frame.of_complete trivial ht fun _ hu => adv.popPc trivial hu).delay id
  | call nnn => exact (Frame.of_complete_map trivial ht fun _ hu => (adv.push trivial hu).withPc _).delay id
  | skp x | sknp x => exact (Frame.of_complete_map trivial ht fun _ _ => adv.skipIf _).delay id
  | seImm x y | sneImm x y | seReg x y | sneReg x y => cases ht; exact s.advance.skipIf_dt _
  | ldK x => exact (Frame.execLdK ht).delay id
  | jp nnn | jpV0 nnn | ldSt x => cases ht; rfl

/-- Settles O56: FX07 writes VX alone, FX15 writes DT, and every other instruction keeps it. -/
theorem delayTimerReadAndWritten : Obligations.DelayTimerReadAndWritten := by
  unfold Obligations.DelayTimerReadAndWritten
  refine ⟨selects_of_row fun c => by simp [opcodeRows, rowsX], selects_of_row fun c => by simp [opcodeRows, rowsX],
    fun s x => ⟨?read, rfl, fun _ _ => exec_keeps_dt⟩⟩
  case read => exact ⟨_, rfl, onlyRegs_advance_setReg s x _, State.reg_setReg_self _ x _⟩

/-! ### The sound timer -/

/-- The output is on while ST is not 0 (R422). -/
theorem State.soundActive_iff (s : State) : s.soundActive = true ↔ s.st ≠ 0 := by
  rw [State.soundActive, decide_eq_true_iff, gt_iff_lt, Nat.pos_iff_ne_zero, BitVec.toNat_ne]
  rfl

/-- Settles O57: setting ST is a `mapUnread` that leaves the count of draws alone. -/
theorem soundTimerWritten : Obligations.SoundTimerWritten := by
  unfold Obligations.SoundTimerWritten
  refine ⟨selects_of_row fun c => by simp [opcodeRows, rowsX], fun _ _ => rfl, State.soundActive_iff,
    fun i s t b hi ht => ?unread⟩
  case unread =>
    have h := exec_mapUnread (g := fun _ => b) (m := id) (s := s) (fun x e => absurd e (hi x)) fun _ _ _ => rfl
    rw [ht] at h
    exact h

/-! ### The skips on a key -/

/-- The key that VX numbers, by its low nibble under KEY_INDEX_POLICY = mask (R366; D10). -/
theorem keyIdx_of_key {c : Config} {v : Byte} {k : Key}
    (h : v.toNat = k.val ∨ (c.keyIndexPolicy = .mask ∧ v.toNat % 16 = k.val)) : keyIdx c v = .ok k := by
  rcases keyIdx_cases c v with ⟨q, hq, hval, -⟩ | ⟨-, hge, hfault⟩
  · have hk : q = k := Fin.ext (by omega)
    rw [hq, hk]
  · rcases h with hk | ⟨hmask, -⟩
    · omega
    · rw [hfault] at hmask; cases hmask

/-- Above 0xF no key is numbered under KEY_INDEX_POLICY = fault (R366; D10). -/
theorem keyIdx_fault_of_gt {c : Config} {v : Byte} (hc : c.keyIndexPolicy = .fault) (h : 0xF < v.toNat) :
    keyIdx c v = .error .keyRange := by
  rcases keyIdx_cases c v with ⟨q, -, -, hlt | hmask⟩ | ⟨hq, -, -⟩
  · omega
  · rw [hc] at hmask; cases hmask
  · exact hq

/-- A skip adds 2 to the advanced pc when its condition holds (R213). -/
theorem State.skipIf_advance (s : State) (cond : Bool) :
    s.advance.skipIf cond = { s with pc := if cond then s.pc + 2 + 2 else s.pc + 2 } := by
  cases cond <;> rfl

/-- A skip adds 2 to the advanced pc unless the condition it denies holds (R213). -/
theorem State.skipIf_not_advance (s : State) (cond : Bool) :
    s.advance.skipIf (!cond) = { s with pc := if cond then s.pc + 2 else s.pc + 2 + 2 } := by
  cases cond <;> rfl

section
variable {s : State} {x : Reg} {k : Key} {c : FaultCause}

theorem exec_skp_of_keyIdx (h : keyIdx s.cfg (s.reg x) = .ok k) :
    exec (.skp x) s = .next { s with pc := if s.keys[k] then s.pc + 2 + 2 else s.pc + 2 } := by
  rw [exec, execSkp, h, ← s.skipIf_advance]
  rfl

theorem exec_sknp_of_keyIdx (h : keyIdx s.cfg (s.reg x) = .ok k) :
    exec (.sknp x) s = .next { s with pc := if s.keys[k] then s.pc + 2 else s.pc + 2 + 2 } := by
  rw [exec, execSknp, h, ← s.skipIf_not_advance]
  rfl

theorem exec_skp_of_keyIdx_error (h : keyIdx s.cfg (s.reg x) = .error c) :
    exec (.skp x) s = .next (s.takeFault c) := by
  rw [exec, execSkp, h]; rfl

theorem exec_sknp_of_keyIdx_error (h : keyIdx s.cfg (s.reg x) = .error c) :
    exec (.sknp x) s = .next (s.takeFault c) := by
  rw [exec, execSknp, h]; rfl

end

/-- Settles O54: the skips test the key that VX numbers, or end in the fault entry of KEY_RANGE. -/
theorem keySkips : Obligations.KeySkips := by
  unfold Obligations.KeySkips
  refine ⟨selects_of_row fun c => by simp [opcodeRows, rowsX], selects_of_row fun c => by simp [opcodeRows, rowsX],
    fun s x k => ⟨fun hk => ?key, fun hp hgt => ?range⟩⟩
  case key => exact ⟨exec_skp_of_keyIdx (keyIdx_of_key hk), exec_sknp_of_keyIdx (keyIdx_of_key hk)⟩
  case range =>
    have h := keyIdx_fault_of_gt hp hgt
    exact ⟨exec_skp_of_keyIdx_error h, exec_sknp_of_keyIdx_error h⟩

end Sys2Proof.Machine
end

section
/-! PROOFS. Faults and run states (60_exceptions.md): an instruction completes or faults precisely (O13), what the
control, key and timer instructions leave unchanged (O59), and the host's set_key (O23) and set_paused (O24). -/

namespace Sys2Proof.Machine

open Sys2Proof.Claims

/-! ### What the control, key and timer instructions leave unchanged -/

/-- Settles O59: the checked ones go through `complete`, FX0A has its own frame, and the others are an advance and one
write. -/
theorem controlKeyTimerFrame : Obligations.ControlKeyTimerFrame := by
  unfold Obligations.ControlKeyTimerFrame
  intro i s t w hw ht
  have adv := Frame.advance w s
  cases i with
  | jp nnn | jpV0 nnn => cases hw; cases ht; exact adv.withPc _
  | seImm x y | sneImm x y | seReg x y | sneReg x y => cases hw; cases ht; exact adv.skipIf _
  | ret => cases hw; exact Frame.of_complete trivial ht fun _ hu => adv.popPc trivial hu
  | call nnn => cases hw; exact Frame.of_complete_map trivial ht fun _ hu => (adv.push trivial hu).withPc _
  | skp x | sknp x => cases hw; exact Frame.of_complete_map trivial ht fun _ _ => adv.skipIf _
  | ldK x => cases hw; exact Frame.execLdK ht
  | ldDt x => cases hw; cases ht; exact { adv with delay := fun h => absurd trivial h }
  | ldSt x => cases hw; cases ht; exact { adv with sound := fun h => absurd trivial h }
  | _ => cases hw

/-! ### The causes that a check can answer (R401) -/

section
variable {s : State} {c : FaultCause}

theorem State.popPc_eq_error (h : s.popPc = .error c) : c = .stackUnderflow := by
  unfold State.popPc at h
  split at h <;> cases h
  rfl

theorem State.push_eq_error {w : Word} (h : s.push w = .error c) : c = .stackOverflow := by
  unfold State.push at h
  split at h <;> cases h
  rfl

theorem State.readBlock_eq_error {base n : Nat} (h : s.readBlock base n = .error c) : c = .memBounds := by
  obtain ⟨as, -, hr⟩ | ⟨-, hr⟩ := s.readBlock_cases base n <;> rw [hr] at h <;> cases h
  rfl

theorem State.writeBlock_eq_error {base : Nat} {bytes : List Byte} (h : s.writeBlock base bytes = .error c) :
    c = .memBounds ∨ c = .fontWrite := by
  obtain ⟨as, -, -, hw⟩ | ⟨-, hw⟩ | ⟨as, -, -, hw⟩ := s.writeBlock_cases base bytes <;> rw [hw] at h <;> cases h
  · exact .inl rfl
  · exact .inr rfl

theorem keyIdx_eq_error {cfg : Config} {v : Byte} (h : keyIdx cfg v = .error c) : c = .keyRange := by
  obtain ⟨k, hk, -⟩ | ⟨hk, -⟩ := keyIdx_cases cfg v <;> rw [hk] at h <;> cases h
  rfl

end

/-! ### Completing or faulting precisely -/

/-- What an instruction begun in `s` may make of it: run_state and fault_cause are kept, or `t` is the fault entry of
one of the causes (R405; D11). -/
def CompletesOrFaults (causes : List FaultCause) (s t : State) : Prop :=
  (t.runState = s.runState ∧ t.faultCause = s.faultCause) ∨ ∃ c ∈ causes, t = s.takeFault c

section
variable {causes : List FaultCause} {w : Touched} {s t : State}

/-- A frame that does not name the fault fields keeps them. -/
theorem Frame.completes (h : Frame w s t) (hw : ¬ w.fault) : CompletesOrFaults causes s t := .inl (h.fault hw)

/-- An instruction that ends through `complete` faults with its check's cause and completes with its own state. -/
theorem CompletesOrFaults.of_complete {e : Except FaultCause State} (ht : complete s e = .next t)
    (herr : ∀ c, e = .error c → c ∈ causes) (hw : ¬ w.fault) (hok : ∀ u, e = .ok u → Frame w s u) :
    CompletesOrFaults causes s t := by
  obtain hu | ⟨c, hc, rfl⟩ := complete_eq_next ht
  · exact (hok t hu).completes hw
  · exact .inr ⟨c, herr c hc, rfl⟩

theorem CompletesOrFaults.of_complete_map {α : Type} {e : Except FaultCause α} {f : α → State}
    (ht : complete s (e.map f) = .next t) (herr : ∀ c, e = .error c → c ∈ causes) (hw : ¬ w.fault)
    (hok : ∀ a, e = .ok a → Frame w s (f a)) : CompletesOrFaults causes s t := by
  obtain ⟨a, ha, rfl⟩ | ⟨c, hc, rfl⟩ := complete_map_eq_next ht
  · exact (hok a ha).completes hw
  · exact .inr ⟨c, herr c hc, rfl⟩

end

/-- Every instruction completes, or faults with a cause of its own: those that do not end through `complete` have a
frame without the fault fields. -/
theorem exec_completesOrFaults {i : Instr} {s t : State} (ht : exec i s = .next t) :
    CompletesOrFaults (causesOf i) s t := by
  -- a frame of all that a checked instruction writes when it completes: the fault fields are not in it
  have adv := Frame.advance
    { regs := fun _ => True, bytes := fun _ => True, index := True, stack := True, pixels := True } s
  cases i with
  | ret =>
    exact .of_complete ht (fun _ hc => List.mem_singleton.mpr (State.popPc_eq_error hc)) id
      fun _ hu => adv.popPc trivial hu
  | call nnn =>
    exact .of_complete_map ht (fun _ hc => List.mem_singleton.mpr (State.push_eq_error hc)) id
      fun _ hu => (adv.push trivial hu).withPc _
  | skp x | sknp x =>
    exact .of_complete_map ht (fun _ hc => List.mem_singleton.mpr (keyIdx_eq_error hc)) id fun _ _ => adv.skipIf _
  | drw x y n =>
    exact .of_complete_map ht (fun _ hc => List.mem_singleton.mpr (State.readBlock_eq_error hc)) id
      fun _ _ => (adv.withFb trivial _).setReg trivial _
  | ldRegs x =>
    exact .of_complete_map ht (fun _ hc => List.mem_singleton.mpr (State.readBlock_eq_error hc)) id
      fun _ _ => (adv.loadRegs fun _ _ => trivial).bumpIndex (fun _ => trivial) x
  | ldB x =>
    exact .of_complete ht (fun _ hc => List.mem_pair.mpr (State.writeBlock_eq_error hc)) id
      fun _ hu => adv.writeBlock hu fun _ _ _ _ => trivial
  | stRegs x =>
    exact .of_complete_map ht (fun _ hc => List.mem_pair.mpr (State.writeBlock_eq_error hc)) id
      fun _ hu => (adv.writeBlock hu fun _ _ _ _ => trivial).bumpIndex (fun _ => trivial) x
  | ldImm x y | addImm x y | ldReg x y | or x y | and x y | xor x y => exact (aluFrame _ s t _ rfl ht).completes id
  | addReg x y | sub x y | shr x y | subn x y | shl x y => exact (aluFrame _ s t _ rfl ht).completes id
  | rnd x nn | ldVxDt x => exact (aluFrame _ s t _ rfl ht).completes id
  | jp nnn | jpV0 nnn | seImm x y | sneImm x y | seReg x y | sneReg x y =>
    exact (controlKeyTimerFrame _ s t _ rfl ht).completes id
  | ldK x | ldDt x | ldSt x => exact (controlKeyTimerFrame _ s t _ rfl ht).completes id
  | cls | ldI nnn | addI x | ldF x => exact (memoryDisplayFrame _ s t _ rfl ht).completes id

/-- Settles O13: the causes are those of the checks that the instruction makes before its first write. -/
theorem instructionCompletesOrFaultsPrecisely : Obligations.InstructionCompletesOrFaultsPrecisely := by
  unfold Obligations.InstructionCompletesOrFaultsPrecisely
  exact fun _ _ _ => exec_completesOrFaults

/-! ### The host's set_key -/

theorem State.setKey_of_lt (s : State) {k : Nat} (h : k < 16) (b : Bool) :
    s.setKey k b = .next { s with keys := s.keys.set k b h } := dif_pos h

theorem State.setKey_of_not_lt (s : State) {k : Nat} (h : ¬ k < 16) (b : Bool) :
    s.setKey k b = .refused .keyNotInInterface := dif_neg h

/-- Settles O23: a key of the interface is set in the latch, and any other number is refused. -/
theorem setKeyWritesOneKey : Obligations.SetKeyWritesOneKey := by
  unfold Obligations.SetKeyWritesOneKey
  refine fun s k b => ⟨fun hk => ?refused, fun hk => ?set⟩
  case refused => exact s.setKey_of_not_lt (Nat.not_lt.mpr hk) b
  case set =>
    have h : k < 16 := Nat.lt_succ_of_le hk
    exact ⟨_, s.setKey_of_lt h b, rfl, Vector.getElem?_set_self h, fun _ hq => Vector.getElem?_set_ne h hq.symm⟩

/-! ### The host's set_paused -/

/-- Outside Halted, set_paused chooses between Paused and Running (R435). -/
theorem RunState.setPaused_of_ne_halted {r : RunState} (h : r ≠ .halted) (b : Bool) :
    r.setPaused b = if b then .paused else .running := by
  cases r with
  | running | paused => rfl
  | halted => exact absurd rfl h

/-- Settles O24: Halted stays, and from the other two run states the argument alone decides. -/
theorem setPausedFollowsTable : Obligations.SetPausedFollowsTable := by
  unfold Obligations.SetPausedFollowsTable
  refine fun s b => ⟨rfl, (RunState.setPaused_eq_halted_iff b s.runState).mpr, fun h hb => ?pause, fun h hb => ?resume⟩
  case pause => exact (RunState.setPaused_of_ne_halted h b).trans (if_pos hb)
  case resume => exact (RunState.setPaused_of_ne_halted h b).trans (if_neg (Bool.eq_false_iff.mp hb))

end Sys2Proof.Machine
end

section
/-! PROOFS. Reset and the end of a run (70_reset_and_hazards.md): reset's values and the invariant (O15, O19), what a
load writes, leaves and rejects (O20, O21), and the parked end (O25). -/

namespace Sys2Proof.Machine

/-! ### Load -/

/-- A program that fits is stored from the entry point on, with pc at it, an empty stack and no key awaited (R470). -/
theorem State.load_of_fits (s : State) {prog : List Byte} (h : ProgramWellFormed prog) :
    s.load prog = (.ok, { s with
      mem := Memory.writeAll s.cfg.font s.mem ((List.range' entryPoint prog.length).zip prog)
      pc := 0x200, sp := 0, keyWait := .idle }) := if_pos h

theorem State.load_of_too_large (s : State) {prog : List Byte} (h : ¬ ProgramWellFormed prog) :
    s.load prog = (.programTooLarge, s) := if_neg h

/-- The program's bytes read back from the entry point on: their addresses differ (R470). -/
theorem State.byteAt_load_program {s : State} (hs : s.Inv) {prog : List Byte} (h : ProgramWellFormed prog) {k : Nat}
    (hk : k < prog.length) : (s.load prog).2.byteAt (entryPoint + k) = prog[k] := by
  have hmem : (entryPoint + k, prog[k]) ∈ (List.range' entryPoint prog.length).zip prog :=
    List.mem_of_getElem? (i := k) (List.getElem?_zip_eq_some.mpr ⟨by simp [hk], List.getElem?_eq_getElem hk⟩)
  have hdistinct : (((List.range' entryPoint prog.length).zip prog).map Prod.fst).Nodup := by
    rw [List.map_fst_zip (by simp)]
    exact List.nodup_range'
  rw [s.load_of_fits h]
  exact Memory.read_writeAll_of_mem _ hs.mem.1 hdistinct hmem

/-- A load writes no byte outside the program's place; a rejected one writes none at all (R470, R471). -/
theorem State.byteAt_load_of_outside (s : State) {prog : List Byte} {a : Nat}
    (ha : a < entryPoint ∨ entryPoint + prog.length ≤ a) : (s.load prog).2.byteAt a = s.byteAt a := by
  by_cases h : ProgramWellFormed prog
  · rw [s.load_of_fits h]
    refine Memory.read_writeAll_of_not_mem _ _ _ _ fun w hw => ?_
    have hr := List.mem_range'_1.mp (List.of_mem_zip hw).1
    omega
  · rw [s.load_of_too_large h]

/-- Settles O21: the program's addresses differ, so its bytes read back, and no other address is written. -/
theorem loadPlacesProgram : Obligations.LoadPlacesProgram := by
  unfold Obligations.LoadPlacesProgram
  refine fun s prog hs hl => ⟨(s.load prog).2, ?result, ?frame, fun k hk => ?program, fun a ha => ?rest⟩
  case result => rw [s.load_of_fits hl]
  case frame => rw [s.load_of_fits hl]
  case program => exact State.byteAt_load_program hs hl hk
  case rest => exact s.byteAt_load_of_outside ha

/-- Settles O20: the length alone decides, and 0xE00 bytes still fit. -/
theorem loadRejectsTooLarge : Obligations.LoadRejectsTooLarge := by
  unfold Obligations.LoadRejectsTooLarge
  refine fun s prog => ⟨fun hl => ?rejected, fun hl => ?accepted, fun hs hl k hk => ?fills⟩
  case rejected => exact s.load_of_too_large (Nat.not_le.mpr hl)
  case accepted => rw [s.load_of_fits hl]
  case fills => exact State.byteAt_load_program hs hl.le hk

/-! ### Reset -/

/-- Settles O15: the default configuration is a legal one. -/
theorem resetMeetsInv : Obligations.ResetMeetsInv := by
  unfold Obligations.ResetMeetsInv
  exact ⟨State.inv_resetWith (by decide), fun _ => State.inv_resetWith⟩

/-- Above the font an address with no cell reads as zero (R461). -/
theorem Memory.unlisted_of_fontEnd_le (font : Vector Byte 80) {a : Nat} (h : fontEnd ≤ a) :
    Memory.unlisted font a = 0 := by
  rw [Memory.unlisted, Vector.getElem?_eq_none h, Option.getD_none]

/-- After reset every byte above the font is zero (R461). -/
theorem State.byteAt_hostReset_of_fontEnd_le (s : State) {a : Nat} (h : fontEnd ≤ a) : s.hostReset.byteAt a = 0 :=
  Memory.unlisted_of_fontEnd_le s.cfg.font h

theorem State.reg_hostReset (s : State) (x : Reg) : s.hostReset.reg x = 0 := Vector.getElem_replicate x.isLt

/-- After reset every pixel is dark (R461). -/
theorem State.pixel_hostReset (s : State) (r c : Nat) : s.hostReset.pixel r c = false := pixelOf_clearFb s.cfg r c

/-- Settles O19: the font is placed as O17 has it, and every other field has the value that the reset state gives it. -/
theorem resetValues : Obligations.ResetValues := by
  unfold Obligations.ResetValues
  intro s
  refine ⟨rfl, s.fontIntact_hostReset, fun a => s.byteAt_hostReset_of_fontEnd_le, s.reg_hostReset, rfl, rfl, ?stack,
    rfl, rfl, rfl, ?keys, s.pixel_hostReset, rfl, rfl, rfl, rfl, rfl⟩
  case stack => exact fun k hk => Vector.getElem_replicate hk
  case keys => exact fun k => Vector.getElem_replicate k.isLt

/-! ### The parked end -/

/-- A jump to its own address changes nothing (R206). -/
theorem exec_jp_of_self {s : State} {nnn : Addr12} (h : zextAddr nnn = s.pc) : exec (.jp nnn) s = .next s := by
  show Host.Outcome.next { s.advance with pc := zextAddr nnn } = .next s
  rw [h]
  rfl

/-- Settles O25: the step runs the jump that the parked end fetches, and its target is pc itself. -/
theorem parkedEndStays : Obligations.ParkedEndStays := by
  unfold Obligations.ParkedEndStays
  rintro s ⟨hr, op, nnn, hf, hd, hpc⟩
  rw [step_of_instr hr hf hd, exec_jp_of_self hpc]

end Sys2Proof.Machine
end
